-- ==== Sys2Proof/Word.lean ====
section
/-! DEFINITION. The words of the core (00_scope.md R10, R11, R13): bytes and nibbles. -/

namespace Sys2Proof

/-- An 8-bit value: a memory cell, `ir`, `acc`, `out`, an instruction (R10, R13, R46). -/
abbrev Byte := BitVec 8

/-- "a 4-bit value, range 0–15" (R20). -/
abbrev Nibble := BitVec 4

/-- A memory address, and the width of `pc` (R10, R11). -/
abbrev Addr := Nibble

end Sys2Proof
end

