-- ==== Sys2Proof/Config.lean ====
section
/-! DEFINITION. What the spec fixes as a parameter of the machine. Nothing is left free: every register and cell has a
defined value and no arithmetic result is open (93_implementation_defined.md), so there is no free value here. -/

namespace Sys2Proof.Config

/-- `MEM_CAPACITY`: the number of memory cells, 16 (00_scope.md R12, decision D3). -/
def memCapacity : Nat := 16

end Sys2Proof.Config
end

