-- ==== Sys2Proof/Syntax.lean ====
section
/-! DEFINITION. The instructions: one constructor per row of spec/opcode_table.json. -/

namespace Sys2Proof

/-- The closed instruction set (00_scope.md R2, 30_encoding.md R68). The operand `a` is a 4-bit absolute address (R67).
HLT and OUT carry no operand: the low nibble of their byte is ignored (R69) and decoding drops it (R71). -/
inductive Instr where
  /-- Opcode 0, R92. -/
  | hlt
  /-- Opcode 1, R93. -/
  | lda (a : Addr)
  /-- Opcode 2, R94. -/
  | add (a : Addr)
  /-- Opcode 3, R95. -/
  | sub (a : Addr)
  /-- Opcode 4, R96. -/
  | out
  deriving DecidableEq, Repr

end Sys2Proof
end

