-- ==== Sys2Proof/WellFormed.lean ====
section
/-! DEFINITION. When an instruction, and a numeral written by a programmer, is well formed. -/

namespace Sys2Proof

/-- An address numeral names a cell of the memory: it lies in [0, 15] (30_encoding.md R73). -/
def addrNumeralWf (n : Nat) : Bool := decide (n < Config.memCapacity)

/-- A byte numeral lies in [0, 255] (30_encoding.md R74). -/
def byteNumeralWf (n : Nat) : Bool := decide (n < 256)

/-- The operand of a memory-referencing instruction names a cell. A 4-bit operand always does, because the memory has 16
cells (20_memory.md R50), so no ill-formed instruction can be built; the checks that can fail are the two above. -/
def Instr.wf : Instr → Bool
  | .hlt => true
  | .lda a => addrNumeralWf a.toNat
  | .add a => addrNumeralWf a.toNat
  | .sub a => addrNumeralWf a.toNat
  | .out => true

end Sys2Proof
end

