-- ==== Sys2Proof/Decode.lean ====
section
/-! DEFINITION. Decoding and encoding: 30_encoding.md R66 to R72, R75. -/

namespace Sys2Proof

/-- `byte[7:4]`, the opcode (R66). -/
def opcodeField (b : Byte) : Nibble := b.extractLsb' 4 4

/-- `byte[3:0]`, the operand address `a` (R66). -/
def addrField (b : Byte) : Addr := b.extractLsb' 0 4

/-- What a byte decodes to (R71): an instruction, or `Invalid` (R70). -/
inductive Decoded where
  | instr (i : Instr)
  | invalid
  deriving DecidableEq, Repr

/-- The decoder of R71, total over the 256 bytes. -/
def decode (b : Byte) : Decoded :=
  match (opcodeField b).toNat with
  | 0 => .instr .hlt
  | 1 => .instr (.lda (addrField b))
  | 2 => .instr (.add (addrField b))
  | 3 => .instr (.sub (addrField b))
  | 4 => .instr .out
  | _ => .invalid

/-- Decoding a stretch of bytes: each instruction is one byte (R72). No value where a byte is invalid. -/
def decodeAll : List Byte → Option (List Instr)
  | [] => some []
  | b :: bs =>
    match decode b, decodeAll bs with
    | .instr i, some is => some (i :: is)
    | _, _ => none

/-- The canonical byte of an instruction (R75): HLT and OUT with a zero low nibble. -/
def encode : Instr → Byte
  | .hlt => 0x00#8
  | .lda a => 0x10#8 ||| a.setWidth 8
  | .add a => 0x20#8 ||| a.setWidth 8
  | .sub a => 0x30#8 ||| a.setWidth 8
  | .out => 0x40#8

/-- One row of the opcode map: a byte `b` lies in it when `b &&& mask = value` (spec/opcode_table.json, "match" and
"mask"). -/
structure OpcodeRow where
  mnemonic : String
  value : Byte
  mask : Byte
  deriving DecidableEq, Repr

def OpcodeRow.covers (r : OpcodeRow) (b : Byte) : Bool := b &&& r.mask == r.value

/-- The opcode map of R68, "a fixed table of exactly five entries indexed 0–4". -/
def opcodeTable : List OpcodeRow :=
  [ ⟨"HLT", 0x00#8, 0xF0#8⟩,
    ⟨"LDA", 0x10#8, 0xF0#8⟩,
    ⟨"ADD", 0x20#8, 0xF0#8⟩,
    ⟨"SUB", 0x30#8, 0xF0#8⟩,
    ⟨"OUT", 0x40#8, 0xF0#8⟩ ]

/-- The mnemonic of an instruction, as the opcode map spells it (R68). -/
def Instr.mnemonic : Instr → String
  | .hlt => "HLT"
  | .lda _ => "LDA"
  | .add _ => "ADD"
  | .sub _ => "SUB"
  | .out => "OUT"

/-- The instruction the decoder reads from the first `nbits` bits of `w`: an instruction is one byte (R72), and the bits
above `nbits` are zero. -/
def decodeTableWord (nbits w : Nat) : Option Instr :=
  match decode (BitVec.ofNat 8 (w % 2 ^ nbits)) with
  | .instr i => some i
  | .invalid => none

end Sys2Proof
end

