-- ==== Sys2Proof/Machine/State.lean ====
section
/-! DEFINITION. The machine's state (10_state.md R21, R45; 20_memory.md R46), the reasons a step can stop, and reset. -/

namespace Sys2Proof.Machine

/-- The memory as plain data: cells by rising address, none listed that holds what an unlisted address reads as
(`Memory.wf` in Machine/Ops.lean; log entry 3). -/
abbrev Memory := List Host.Cell

/-- The record of R45: four registers, the halted flag, and the attached memory. Nothing else is stored (R21, R34). -/
structure State where
  /-- Program counter, R22. -/
  pc : Addr
  /-- Instruction register, R23. -/
  ir : Byte
  /-- Accumulator, R24. -/
  acc : Byte
  /-- Output latch, R25. -/
  out : Byte
  /-- The halted flag, R26: false is RUNNING, true is HALTED (R35). -/
  halted : Bool
  /-- The unified memory, R46. -/
  mem : Memory
  deriving DecidableEq, Repr

/-- Why the machine stops with a fault. -/
inductive Fault where
  /-- Raised by the cycle alone, in RUNNING, when the fetched byte has opcode 0x5 to 0xF (60_exceptions.md R101, R102).
  It carries the pre-cycle `pc` and the byte. Safe: the hardware goes on with its state unchanged, and the model makes it
  a fault because R104 says so (log entry 2). -/
  | invalidOpcode (pc : Addr) (byte : Byte)
  deriving DecidableEq, Repr

/-- What the model has no meaning for. -/
inductive Refusal where
  /-- An instruction that has no meaning yet: no arm of `exec` uses it. Safe. -/
  | notModelled (mnemonic : String)
  /-- The host reads memory at a negative address: "not admitted, and a model refuses it" (20_memory.md R53). Safe. -/
  | hostReadNegativeAddress (a : Int)
  /-- The host writes memory outside [0, 15]: "not admitted, and a model refuses it" (20_memory.md R55). Safe. -/
  | hostWriteOutsideMemory (a : Int)
  /-- `step` and `host_we` at one edge: "not admitted: the host broke its contract (R41); a model refuses" (10_state.md
  R44). Safe. -/
  | stepWithHostWrite
  /-- A host memory write at the edge of a cycle (70_reset_and_hazards.md R122, D15) or of another host operation
  (10_state.md R41; log entry 7). Safe. -/
  | memoryWriteWithOtherOperation
  deriving DecidableEq, Repr

/-- The machine right after reset (10_state.md R36, 70_reset_and_hazards.md R114), bound to a newly built memory, which is
zero (20_memory.md R48). -/
def State.reset : State where
  pc := 0x0#4
  ir := 0x00#8
  acc := 0x00#8
  out := 0x00#8
  halted := false
  mem := []

end Sys2Proof.Machine
end

