-- ==== Sys2Proof/Machine/Ops.lean ====
section
/-! DEFINITION. The named operations over memory and registers, and the part of a cycle that all instructions share.
There is no operation that takes an exception and none that returns from one: the core has no trap (60_exceptions.md R103)
and no return (R105). -/

namespace Sys2Proof.Machine

/-! ### Memory -/

/-- What a cell that was never written holds: the memory is zero when it is built (20_memory.md R48). -/
def Memory.unlisted : Byte := 0x00#8

/-- The newly built memory, `Memory::new` (R48). -/
def Memory.new : Memory := []

/-- The value listed for an address, or that of an unlisted one. -/
def Memory.lookup : Memory → Nat → Byte
  | [], _ => Memory.unlisted
  | (k, v) :: m, a => if k = a then v else Memory.lookup m a

/-- Put a value at an address and keep the canonical form. -/
def Memory.store : Memory → Nat → Byte → Memory
  | [], a, v => if v = Memory.unlisted then [] else [(a, v)]
  | (k, w) :: m, a, v =>
    if a < k then (if v = Memory.unlisted then (k, w) :: m else (a, v) :: (k, w) :: m)
    else if a = k then (if v = Memory.unlisted then m else (a, v) :: m)
    else (k, w) :: Memory.store m a v

/-- `mem[a]` (R46): every 4-bit address names a cell (R50). -/
def Memory.read (m : Memory) (a : Addr) : Byte := Memory.lookup m a.toNat

/-- `mem[a] <- v`, one byte (R54, R56). -/
def Memory.write (m : Memory) (a : Addr) (v : Byte) : Memory := Memory.store m a.toNat v

/-- The canonical form from address `lo` on: addresses strictly rise and stay inside the memory, and no cell listed holds
the value of an unlisted one. -/
def Memory.wfFrom (lo : Nat) : Memory → Bool
  | [] => true
  | (k, v) :: m =>
    decide (lo ≤ k) && decide (k < Config.memCapacity) && decide (v ≠ Memory.unlisted) && Memory.wfFrom (k + 1) m

/-- The canonical form of a memory: equal contents are equal data. -/
def Memory.wf (m : Memory) : Bool := Memory.wfFrom 0 m

/-! ### Registers -/

/-- `v & 0x0F` for any integer v: its residue modulo 16 (00_scope.md R15, 10_state.md R27). -/
def maskAddr (v : Int) : Addr := BitVec.ofInt 4 v

/-- `v & 0xFF` for any integer v: its residue modulo 256 (00_scope.md R15, 10_state.md R27). -/
def maskByte (v : Int) : Byte := BitVec.ofInt 8 v

/-- `pc <- v` (10_state.md R27). -/
def State.writePc (s : State) (v : Int) : State := { s with pc := maskAddr v }

/-- `ir <- v` (R27). -/
def State.writeIr (s : State) (v : Int) : State := { s with ir := maskByte v }

/-- `acc <- v` (R27). -/
def State.writeAcc (s : State) (v : Int) : State := { s with acc := maskByte v }

/-- `out <- v` (R27). -/
def State.writeOut (s : State) (v : Int) : State := { s with out := maskByte v }

/-- `halted <- true`: the flag is only ever set (10_state.md R26). -/
def State.setHalted (s : State) : State := { s with halted := true }

/-- The effect of a reset on a machine that is there already: the registers take the values of 10_state.md R36, the memory
stays as it is (70_reset_and_hazards.md R114, R116). -/
def State.applyReset (s : State) : State := { State.reset with mem := s.mem }

/-! ### The shared part of a cycle -/

/-- `MemRead(a, 1)` (20_memory.md R50): no side effect, cannot fail. -/
def memRead (s : State) (a : Addr) : Byte := Memory.read s.mem a

/-- Fetch (40_cycle.md R79): the byte at `pc`. -/
def fetch (s : State) : Byte := memRead s s.pc

/-- What every executed cycle commits beside the handler's own writes (40_cycle.md R83, R84): `ir <- f` and `pc <- pc + 1`,
computed from the pre-cycle state `s`. A meaning writes its own registers on top, with values computed from `s`, so that all
the writes take effect together (00_scope.md R17; log entry 1). -/
def commitFetch (s : State) : State := (s.writeIr (fetch s).toNat).writePc (s.pc.toNat + 1)

end Sys2Proof.Machine
end

