-- ==== Sys2Proof/Machine/Operands.lean ====
section
/-! DEFINITION. Operand forms. There is one: `a`, a 4-bit absolute address used as it is, which names the cell `mem[a]`
(30_encoding.md R67). No immediates, no register fields. -/

namespace Sys2Proof.Machine

/-- The operand of LDA, ADD and SUB: the cell at `a`, read from the memory as it was before the cycle (20_memory.md R49),
as a number in [0, 255] (00_scope.md R15). -/
def operandValue (s : State) (a : Addr) : Int := (memRead s a).toNat

/-- The accumulator, the implicit operand of ADD, SUB and OUT (30_encoding.md R67), as a number in [0, 255]. -/
def accValue (s : State) : Int := s.acc.toNat

end Sys2Proof.Machine
end

