-- ==== Sys2Proof/Machine/Flags.lean ====
section
/-! DEFINITION. Flag computations. There are none: "there is no status/flags register in this architecture" (10_state.md
R31). What stands here is the exact arithmetic whose carry or borrow another machine would keep; the register write of its
result masks it to a byte (10_state.md R27), and nothing records what was dropped (41_instructions.md R94, R95, R97). -/

namespace Sys2Proof.Machine

/-- The exact sum of ADD, in [0, 510] (R94). -/
def sumValue (x y : Int) : Int := x + y

/-- The exact difference of SUB, in [-255, 255] (R95). -/
def differenceValue (x y : Int) : Int := x - y

end Sys2Proof.Machine
end

