-- ==== Sys2Proof/Machine/Accumulator.lean ====
section
/-! DEFINITION. The instructions that write the accumulator: LDA, ADD, SUB (41_instructions.md R93 to R95). -/

namespace Sys2Proof.Machine

/-- LDA a (R93): `acc <- MemRead(a, 1)`. -/
def execLda (a : Addr) (s : State) : Host.Outcome State Fault Refusal :=
  .next ((commitFetch s).writeAcc (operandValue s a))

/-- ADD a (R94): `acc <- (acc + MemRead(a, 1)) & 0xFF`. -/
def execAdd (a : Addr) (s : State) : Host.Outcome State Fault Refusal :=
  .next ((commitFetch s).writeAcc (sumValue (accValue s) (operandValue s a)))

/-- SUB a (R95): `acc <- (acc - MemRead(a, 1)) mod 256`. -/
def execSub (a : Addr) (s : State) : Host.Outcome State Fault Refusal :=
  .next ((commitFetch s).writeAcc (differenceValue (accValue s) (operandValue s a)))

end Sys2Proof.Machine
end

