-- ==== Sys2Proof/Machine/Control.lean ====
section
/-! DEFINITION. The instructions without an operand: HLT and OUT (41_instructions.md R92, R96). -/

namespace Sys2Proof.Machine

/-- HLT (R92): `halted <- true`. Its cycle still writes `ir` and advances `pc` (90_conflicts.md C1). -/
def execHlt (s : State) : Host.Outcome State Fault Refusal :=
  .next (commitFetch s).setHalted

/-- OUT (R96): `out <- acc`. -/
def execOut (s : State) : Host.Outcome State Fault Refusal :=
  .next ((commitFetch s).writeOut (accValue s))

end Sys2Proof.Machine
end

