-- ==== Sys2Proof/Machine/Step.lean ====
section
/-! DEFINITION. One step of the machine: one cycle (40_cycle.md R76 to R85). -/

namespace Sys2Proof.Machine

/-- One cycle. The tests stand in the order of 60_exceptions.md R107: HALTED is a no-op (R77); an invalid byte is the fault
`InvalidOpcode`, with nothing committed (R85, R104); any other byte executes. -/
def step (s : State) : Host.Outcome State Fault Refusal :=
  if s.halted then .next s
  else
    match decode (fetch s) with
    | .instr i => exec i s
    | .invalid => .fault (.invalidOpcode s.pc (fetch s))

/-- `s` with the byte `w` in the cell the next cycle fetches, and RUNNING, because a HALTED core fetches nothing (R77).
It stands for a host that writes the program from outside (70_reset_and_hazards.md R119; log entry 4). -/
def State.withFetchWord (s : State) (nbits w : Nat) : State :=
  { s with halted := false, mem := Memory.write s.mem s.pc (BitVec.ofNat 8 (w % 2 ^ nbits)) }

end Sys2Proof.Machine
end

