-- ==== Sys2Proof/Machine/Assembler.lean ====
section
/-! DEFINITION. The assembler of 30_encoding.md R73 to R75: statements, their bytes, their text, and the memory they load.
No machine rule depends on it (decision D10). What R73 and R74 leave open is in log entries 8, 9 and 15. -/

namespace Sys2Proof.Machine

/-- The statements of R73 and R74, with the numeral as written. -/
inductive Statement where
  | hlt
  | lda (a : Nat)
  | add (a : Nat)
  | sub (a : Nat)
  | out
  | byte (v : Nat)
  | org (n : Nat)
  deriving DecidableEq, Repr

/-- "A numeral outside [0, 15] is an assembly error, not a wrap" (R73); `.byte` takes [0, 255] and `.org` [0, 15] (R74). -/
def Statement.wf : Statement → Bool
  | .hlt => true
  | .lda a => addrNumeralWf a
  | .add a => addrNumeralWf a
  | .sub a => addrNumeralWf a
  | .out => true
  | .byte v => byteNumeralWf v
  | .org n => addrNumeralWf n

/-- The byte a statement places, and none for `.org` (R74, R75). -/
def Statement.byte? : Statement → Option Byte
  | .hlt => some (encode .hlt)
  | .lda a => some (encode (.lda (BitVec.ofNat 4 a)))
  | .add a => some (encode (.add (BitVec.ofNat 4 a)))
  | .sub a => some (encode (.sub (BitVec.ofNat 4 a)))
  | .out => some (encode .out)
  | .byte v => some (BitVec.ofNat 8 v)
  | .org _ => none

/-- The statement an instruction is written as (R73). -/
def Statement.ofInstr : Instr → Statement
  | .hlt => .hlt
  | .lda a => .lda a.toNat
  | .add a => .add a.toNat
  | .sub a => .sub a.toNat
  | .out => .out

/-- Disassembly: the low nibble of HLT and OUT is dropped (R75). How an invalid byte, 0x50 to 0xFF, is shown is open in the
spec; the model shows it as data, `.byte` (log entry 15, DESIGN CHOICE). -/
def disassemble (b : Byte) : Statement :=
  match decode b with
  | .instr i => Statement.ofInstr i
  | .invalid => .byte b.toNat

/-- Why assembling fails. -/
inductive AsmError where
  /-- A line that is none of the forms of R73 and R74. -/
  | badLine
  /-- A numeral outside its range (R73, R74). -/
  | numeralOutOfRange
  /-- A byte to place after address 0xF (log entry 9). -/
  | pastLastAddress
  deriving DecidableEq, Repr

/-- Assemble from the current address `cur` on, into a memory (R74). -/
def assembleFrom : Nat → Memory → List Statement → Except AsmError Memory
  | _, m, [] => .ok m
  | cur, m, st :: rest =>
    if st.wf then
      match st.byte?, st with
      | none, .org n => assembleFrom n m rest
      | none, _ => assembleFrom cur m rest
      | some b, _ =>
        if cur < Config.memCapacity then assembleFrom (cur + 1) (Memory.store m cur b) rest
        else .error .pastLastAddress
    else .error .numeralOutOfRange

/-- "Assembly starts at address 0" (R74), into a newly built memory. -/
def assemble (sts : List Statement) : Except AsmError Memory := assembleFrom 0 Memory.new sts

/-! ### Text -/

/-- Cut a text at every character that `p` holds of. -/
def splitAtChars (p : Char → Bool) : List Char → List (List Char)
  | [] => [[]]
  | c :: cs =>
    if p c then [] :: splitAtChars p cs
    else
      match splitAtChars p cs with
      | [] => [[c]]
      | w :: ws => (c :: w) :: ws

/-- The part of a line before its comment: "`;` starts a comment that runs to the end of the line" (R73). -/
def dropComment : List Char → List Char
  | [] => []
  | c :: cs => if c = ';' then [] else c :: dropComment cs

/-- The words of a line, without its comment. -/
def lineWords (line : List Char) : List (List Char) :=
  (splitAtChars (fun c => c == ' ' || c == '\t' || c == '\r') (dropComment line)).filter (fun w => !w.isEmpty)

/-- The value of a digit, decimal or hex. -/
def digitValue (c : Char) : Option Nat :=
  if '0' ≤ c ∧ c ≤ '9' then some (c.toNat - 48)
  else if 'A' ≤ c ∧ c ≤ 'F' then some (c.toNat - 55)
  else if 'a' ≤ c ∧ c ≤ 'f' then some (c.toNat - 87)
  else none

/-- Digits in a base, after those that gave `acc`. -/
def digitsValue (base : Nat) : Nat → List Char → Option Nat
  | acc, [] => some acc
  | acc, c :: cs =>
    match digitValue c with
    | some d => if d < base then digitsValue base (acc * base + d) cs else none
    | none => none

/-- A number "written in decimal or as `0x` hex" (R73). -/
def numeral : List Char → Option Nat
  | [] => none
  | '0' :: 'x' :: [] => none
  | '0' :: 'x' :: ds => digitsValue 16 0 ds
  | ds => digitsValue 10 0 ds

/-- A statement of one word, or of a word and a numeral. -/
def statementOf (w : List Char) (n : Option Nat) : Option Statement :=
  match n with
  | none =>
    if w = "HLT".toList then some .hlt else if w = "OUT".toList then some .out else none
  | some n =>
    if w = "LDA".toList then some (.lda n)
    else if w = "ADD".toList then some (.add n)
    else if w = "SUB".toList then some (.sub n)
    else if w = ".byte".toList then some (.byte n)
    else if w = ".org".toList then some (.org n)
    else none

/-- One line (R73): a statement, or nothing on a line that is blank or only a comment. -/
def parseLine (line : List Char) : Except AsmError (Option Statement) :=
  match lineWords line with
  | [] => .ok none
  | [w] =>
    match statementOf w none with
    | some st => .ok (some st)
    | none => .error .badLine
  | [w, d] =>
    match numeral d with
    | none => .error .badLine
    | some n =>
      match statementOf w (some n) with
      | some st => if st.wf then .ok (some st) else .error .numeralOutOfRange
      | none => .error .badLine
  | _ => .error .badLine

/-- The statements of a text, "one statement per line" (R73). -/
def parseLines : List (List Char) → Except AsmError (List Statement)
  | [] => .ok []
  | l :: ls =>
    match parseLine l, parseLines ls with
    | .ok none, .ok sts => .ok sts
    | .ok (some st), .ok sts => .ok (st :: sts)
    | .error e, _ => .error e
    | _, .error e => .error e

/-- A source text to the memory it loads. -/
def assembleText (text : List Char) : Except AsmError Memory :=
  match parseLines (splitAtChars (fun c => c == '\n') text) with
  | .ok sts => assemble sts
  | .error e => .error e

/-- A hex digit, in capitals as the spec's listings write it. -/
def hexDigit (v : Nibble) : Char := if v.toNat < 10 then Char.ofNat (48 + v.toNat) else Char.ofNat (55 + v.toNat)

def hexAddr (a : Addr) : List Char := ['0', 'x', hexDigit a]

def hexByte (b : Byte) : List Char := [hexDigit (opcodeField b), hexDigit (addrField b)]

/-- A statement as text, its numeral in hex. -/
def Statement.text : Statement → List Char
  | .hlt => "HLT".toList
  | .lda a => "LDA ".toList ++ hexAddr (BitVec.ofNat 4 a)
  | .add a => "ADD ".toList ++ hexAddr (BitVec.ofNat 4 a)
  | .sub a => "SUB ".toList ++ hexAddr (BitVec.ofNat 4 a)
  | .out => "OUT".toList
  | .byte v => ".byte 0x".toList ++ hexByte (BitVec.ofNat 8 v)
  | .org n => ".org ".toList ++ hexAddr (BitVec.ofNat 4 n)

/-- A line of a listing, `addr: byte ; source` (R74): "a byte's address, its value in hex and the statement that made it". -/
def listingLine (a : Addr) (b : Byte) (st : Statement) : List Char :=
  hexAddr a ++ ": ".toList ++ hexByte b ++ " ; ".toList ++ st.text

end Sys2Proof.Machine
end

