-- ==== Sys2Proof/Machine/Cycle.lean ====
section
/-! DEFINITION. The cycle as the hardware runs it (40_cycle.md R76, R86): an outcome and a next state, where an invalid
opcode is an outcome and the core goes on. It is the spec's own one-function pseudocode, written apart from `exec`; that the
two agree is a statement (`Obligations.StepIsTheCycleOfTheSpec`). -/

namespace Sys2Proof.Machine

/-- The outcome of a cycle (R76, R101). -/
inductive CycleOutcome where
  | executed
  | haltedNoop
  | invalidOpcode (pc : Addr) (byte : Byte)
  deriving DecidableEq, Repr

/-- The triple `(acc', out', halted')` of R86 for a fetched byte, none where dispatch finds no handler (R81, R85). -/
def handlerWrites (f : Byte) (s : State) : Option (Byte × Byte × Bool) :=
  let a := addrField f
  match (opcodeField f).toNat with
  | 0 => some (s.acc, s.out, true)
  | 1 => some (Memory.read s.mem a, s.out, false)
  | 2 => some (BitVec.ofNat 8 ((s.acc.toNat + (Memory.read s.mem a).toNat) % 256), s.out, false)
  | 3 => some (BitVec.ofInt 8 (((s.acc.toNat : Int) - (Memory.read s.mem a).toNat) % 256), s.out, false)
  | 4 => some (s.acc, s.acc, false)
  | _ => none

/-- `cycle(s, mem)` of R86. -/
def cycle (s : State) : CycleOutcome × State :=
  if s.halted then (.haltedNoop, s)
  else
    let f := Memory.read s.mem s.pc
    match handlerWrites f s with
    | some (acc', out', halted') =>
      (.executed, { pc := BitVec.ofNat 4 ((s.pc.toNat + 1) % 16), ir := f, acc := acc', out := out', halted := halted',
                    mem := s.mem })
    | none => (.invalidOpcode s.pc f, s)

/-- `cycle` again and again, each on the state the last one left (R76), for as long as the host asks. -/
def cycles : Nat → State → State
  | 0, s => s
  | n + 1, s => cycles n (cycle s).2

end Sys2Proof.Machine
end

