-- ==== Sys2Proof/Machine/Datapath.lean ====
section
/-! DEFINITION. The ports the core drives and its combinational next-state logic (10_state.md R42, R43; 40_cycle.md R88,
R89). -/

namespace Sys2Proof.Machine

/-- `if_addr`, equal to `pc` (R42). -/
def ifAddr (s : State) : Addr := s.pc

/-- `if_data`, the cell at `if_addr`, a combinational read (R42, 20_memory.md R49). -/
def ifData (s : State) : Byte := Memory.read s.mem (ifAddr s)

/-- `op_addr`, equal to `if_data[3:0]`, driven in every cycle (R42, R49). -/
def opAddr (s : State) : Addr := addrField (ifData s)

/-- `op_data`, the cell at `op_addr` (R42, R49). -/
def opData (s : State) : Byte := Memory.read s.mem (opAddr s)

/-- `valid = (f[7:4] <= 0x4)` (R88). -/
def validSignal (f : Byte) : Bool := decide (opcodeField f ≤ 0x4#4)

/-- `(acc + op_data)[7:0]`: the low byte of a 9-bit sum (R88). -/
def adder (acc op : Byte) : Byte := (acc.setWidth 9 + op.setWidth 9).extractLsb' 0 8

/-- `(acc - op_data)[7:0]`, an "8-bit two's-complement subtract, borrow dropped" (R88). -/
def subtractor (acc op : Byte) : Byte := acc + ~~~op + 1#8

/-- `acc_next` (R88). -/
def accNext (f acc op : Byte) : Byte :=
  if opcodeField f = 0x1#4 then op
  else if opcodeField f = 0x2#4 then adder acc op
  else if opcodeField f = 0x3#4 then subtractor acc op
  else acc

/-- `out_next` (R88). -/
def outNext (f acc out : Byte) : Byte := if opcodeField f = 0x4#4 then acc else out

/-- `halted_next` (R88). -/
def haltedNext (f : Byte) (halted : Bool) : Bool := if opcodeField f = 0x0#4 then true else halted

/-- `en = step & ~rst & ~host_we & ~halted & valid` (R88). -/
def enable (step rst hostWe : Bool) (s : State) : Bool :=
  step && !rst && !hostWe && !s.halted && validSignal (ifData s)

/-- `at rising clk: if en then (pc, ir, acc, out, halted) <- …` (R88). -/
def datapathClock (step rst hostWe : Bool) (s : State) : State :=
  if enable step rst hostWe s then
    { s with
      pc := s.pc + 1#4
      ir := ifData s
      acc := accNext (ifData s) s.acc (opData s)
      out := outNext (ifData s) s.acc s.out
      halted := haltedNext (ifData s) s.halted }
  else s

/-- The code of an outcome on the `status` port (R89, R101). -/
def CycleOutcome.code : CycleOutcome → BitVec 2
  | .executed => 0b00#2
  | .haltedNoop => 0b01#2
  | .invalidOpcode _ _ => 0b10#2

/-- `status` (R89): what a cycle at the next edge would do. -/
def status (s : State) : BitVec 2 :=
  if s.halted then 0b01#2 else if 0x5#4 ≤ opcodeField (ifData s) then 0b10#2 else 0b00#2

/-- The output ports of R42. -/
structure Ports where
  ifAddr : Addr
  opAddr : Addr
  pcQ : Addr
  irQ : Byte
  accQ : Byte
  outQ : Byte
  haltedQ : Bool
  status : BitVec 2
  deriving DecidableEq, Repr

/-- What the ports show between edges (R42, R43): the registered state, and three combinational values. -/
def ports (s : State) : Ports where
  ifAddr := ifAddr s
  opAddr := opAddr s
  pcQ := s.pc
  irQ := s.ir
  accQ := s.acc
  outQ := s.out
  haltedQ := s.halted
  status := status s

end Sys2Proof.Machine
end

