-- ==== Sys2Proof/Machine/HostAccess.lean ====
section
/-! DEFINITION. What the host can do to registers and memory between cycles (10_state.md R37 to R40; 20_memory.md R52 to
R55). A host value is an integer, which the type says (R38, decision D8; log entry 5). -/

namespace Sys2Proof.Machine

/-- The registers the host can write. `halted` is not among them (R40). -/
inductive RegName where
  | pc | ir | acc | out
  deriving DecidableEq, Repr

/-- `host_sel` (R42): 0 = pc, 1 = ir, 2 = acc, 3 = out. -/
def regOfSel (sel : BitVec 2) : RegName :=
  match sel.toNat with
  | 0 => .pc
  | 1 => .ir
  | 2 => .acc
  | _ => .out

/-- A host register read (R37): the stored value, a natural number (00_scope.md R15). -/
def State.readReg (s : State) : RegName → Nat
  | .pc => s.pc.toNat
  | .ir => s.ir.toNat
  | .acc => s.acc.toNat
  | .out => s.out.toNat

/-- A host register write (R38): masked like every write, in RUNNING and in HALTED alike, and `halted` stays (R39). -/
def State.writeReg (s : State) (r : RegName) (v : Int) : State :=
  match r with
  | .pc => s.writePc v
  | .ir => s.writeIr v
  | .acc => s.writeAcc v
  | .out => s.writeOut v

/-- `Memory::read(a)` (R52, R53): any natural address modulo 16, a negative one refused. -/
def hostMemRead (s : State) (a : Int) : Except Refusal Byte :=
  if a < 0 then .error (.hostReadNegativeAddress a) else .ok (Memory.read s.mem (maskAddr a))

/-- `Memory::write(a, v)` (R54, R55): a cell in [0, 15] takes `v & 0xFF`, any other address is refused. -/
def hostMemWrite (s : State) (a v : Int) : Except Refusal State :=
  if 0 ≤ a ∧ a < Config.memCapacity then .ok { s with mem := Memory.write s.mem (maskAddr a) (maskByte v) }
  else .error (.hostWriteOutsideMemory a)

end Sys2Proof.Machine
end

