-- ==== Sys2Proof/Machine/Edge.lean ====
section
/-! DEFINITION. One rising clock edge under its inputs (10_state.md R42, R44; 70_reset_and_hazards.md R114, R122). -/

namespace Sys2Proof.Machine

/-- The inputs at an edge: the core's (R42), and what the host asks of the memory's own port (R42, R122), as an address and
a value. -/
structure EdgeInputs where
  rst : Bool
  step : Bool
  hostWe : Bool
  hostSel : BitVec 2
  hostWdata : Byte
  memWrite : Option (Int × Int)
  deriving DecidableEq, Repr

/-- No input active. -/
def EdgeInputs.idle : EdgeInputs := ⟨false, false, false, 0#2, 0#8, none⟩

/-- The order of R44 for the core's own inputs. -/
def coreEdge (i : EdgeInputs) (s : State) : Host.Outcome State Fault Refusal :=
  if i.rst then .next s.applyReset
  else if i.step && i.hostWe then .refused .stepWithHostWrite
  else if i.step then step s
  else if i.hostWe then .next (s.writeReg (regOfSel i.hostSel) i.hostWdata.toNat)
  else .next s

/-- One edge. A host memory write stands alone at its edge (R41, R122; log entry 7). -/
def clockEdge (i : EdgeInputs) (s : State) : Host.Outcome State Fault Refusal :=
  match i.memWrite with
  | none => coreEdge i s
  | some (a, v) =>
    if i.rst || i.step || i.hostWe then .refused .memoryWriteWithOtherOperation
    else
      match hostMemWrite s a v with
      | .ok t => .next t
      | .error r => .refused r

end Sys2Proof.Machine
end

