-- ==== Sys2Proof/Machine/Run.lean ====
section
/-! DEFINITION. Runs of cycles and how they end (40_cycle.md R91, decision D13). -/

namespace Sys2Proof.Machine

/-- How a run of a number of cycles stands. -/
inductive RunEnd where
  /-- A cycle executed HLT; the state after it is final (R91). -/
  | finished (s : State)
  /-- A cycle returned `InvalidOpcode`; the faulted state is not final (R91, R104). -/
  | faulted (r : Fault)
  | refused (r : Refusal)
  /-- No cycle has ended the run yet. -/
  | running (s : State)
  deriving DecidableEq, Repr

/-- At most `n` cycles from `s`. A run ends well at the cycle that "returns `Executed` with `halted` true afterwards" (R91):
one that began in RUNNING and left HALTED. A run from a HALTED state executes nothing and so never ends (log entry 12). -/
def runFor : Nat → State → RunEnd
  | 0, s => .running s
  | n + 1, s =>
    match step s with
    | .next t => if !s.halted && t.halted then .finished t else runFor n t
    | .fault r => .faulted r
    | .refused r => .refused r

end Sys2Proof.Machine
end

