-- ==== Sys2Proof/Machine/Session.lean ====
section
/-! DEFINITION. A host session: cycles and host operations, one at a time, in one order (10_state.md R41; 20_memory.md
R61). After an `InvalidOpcode` the hardware goes on and so may the host (60_exceptions.md R104, R105); the session records
the fault and never clears it (R104). -/

namespace Sys2Proof.Machine

/-- The operations of R41. -/
inductive Operation where
  | cycle
  | reset
  | readReg (r : RegName)
  | readHalted
  | writeReg (r : RegName) (v : Int)
  | memRead (a : Int)
  | memWrite (a v : Int)
  deriving DecidableEq, Repr

/-- What an operation gives back to the host. -/
inductive Answer where
  | done
  | value (n : Nat)
  | flag (b : Bool)
  | outcome (o : CycleOutcome)
  deriving DecidableEq, Repr

/-- The core with its memory, and the fault a model records (R104). -/
structure Session where
  core : State
  fault : Option Fault
  deriving DecidableEq, Repr

/-- A session begins at reset, with no fault (70_reset_and_hazards.md R118). -/
def Session.start : Session := ⟨State.reset, none⟩

/-- Record the fault of a cycle. The first one stays (R104; log entry 10). -/
def recordFault (before : Option Fault) : CycleOutcome → Option Fault
  | .executed => before
  | .haltedNoop => before
  | .invalidOpcode pc byte => some (before.getD (.invalidOpcode pc byte))

/-- One operation. -/
def Session.apply (x : Session) : Operation → Except Refusal (Session × Answer)
  | .cycle =>
    .ok (⟨(Sys2Proof.Machine.cycle x.core).2, recordFault x.fault (Sys2Proof.Machine.cycle x.core).1⟩,
      .outcome (Sys2Proof.Machine.cycle x.core).1)
  | .reset => .ok ({ x with core := x.core.applyReset }, .done)
  | .readReg r => .ok (x, .value (x.core.readReg r))
  | .readHalted => .ok (x, .flag x.core.halted)
  | .writeReg r v => .ok ({ x with core := x.core.writeReg r v }, .done)
  | .memRead a =>
    match hostMemRead x.core a with
    | .ok b => .ok (x, .value b.toNat)
    | .error r => .error r
  | .memWrite a v =>
    match hostMemWrite x.core a v with
    | .ok s => .ok ({ x with core := s }, .done)
    | .error r => .error r

/-- A sequence of operations, up to the first one that is refused. -/
def Session.run (x : Session) : List Operation → Except Refusal Session
  | [] => .ok x
  | o :: os =>
    match x.apply o with
    | .ok (y, _) => y.run os
    | .error r => .error r

/-- The boot sequence of 70_reset_and_hazards.md R119 after a memory and a processor are there: reset, the writes that load
the program, and the register writes the host chooses. -/
def bootOperations (image : List (Int × Int)) (regs : List (RegName × Int)) : List Operation :=
  .reset :: (image.map fun p => .memWrite p.1 p.2) ++ regs.map fun p => .writeReg p.1 p.2

end Sys2Proof.Machine
end

