-- ==== Sys2Proof/Safety.lean ====
section
/-! DEFINITION. What counts as a good state and a good run, in the terms the statements use. -/

namespace Sys2Proof.Machine

/-- What every reachable state of the core satisfies, whatever the host does: the memory is in its canonical form
(20_memory.md R46, R47; log entry 3). -/
def State.Inv (s : State) : Prop := s.mem.wf = true

/-- The mark an executed HLT leaves (41_instructions.md R92, 10_state.md R23): a HALTED core holds in `ir` the byte of the
HLT it executed, which is the byte just below `pc`. Cycles keep it; a host write to `pc`, `ir` or memory may break it. -/
def State.HaltTrace (s : State) : Prop :=
  s.halted = true → decode s.ir = .instr .hlt ∧ s.ir = memRead s (s.pc - 1#4)

/-- The run from `s` ends well in `t` (40_cycle.md R91). -/
def EndsWell (s t : State) : Prop := ∃ n, runFor n s = .finished t

/-- No cycle of the run from `s` faults. -/
def FaultFree (s : State) : Prop := ∀ n r, runFor n s ≠ .faulted r

/-- Every cell holds an instruction's byte, none an invalid one. -/
def AllCellsDecode (m : Memory) : Prop := ∀ a : Addr, decode (m.read a) ≠ .invalid

/-- What one operation does to the cell at `a` that holds `old`: a host memory write to it stores a byte, anything else
leaves it (20_memory.md R51, R54). -/
def cellAfter (a : Addr) (old : Byte) : Operation → Byte
  | .memWrite b v => if maskAddr b = a then maskByte v else old
  | _ => old

/-- The value of the last write to the cell at `a` in a sequence of operations, or 0 if there is none (20_memory.md R61). -/
def lastWritten (os : List Operation) (a : Addr) : Byte := os.foldl (cellAfter a) 0x00#8

/-- A session whose run is final: HALTED, with no fault on record (R91, R104). -/
def Session.Final (x : Session) : Prop := x.core.halted = true ∧ x.fault = none

end Sys2Proof.Machine
end

