-- ==== Sys2Proof/Certificates/Slice0/Obligations.lean ====
section
/-! DEFINITION. The statements for the provers. Each docstring names the rules it formalises. -/

open Sys2Proof Sys2Proof.Machine

/-! ### Encoding -/

/-- 30_encoding.md R71 and R75, both ways round: the canonical byte of an instruction decodes to it, with every operand; and
a byte that decodes to an instruction has that instruction's opcode and is its canonical byte, but for the low nibble of HLT
and OUT, which is dropped (R69). -/
def Obligations.DecodeAndEncodeAgree : Prop :=
  (∀ i : Instr, i.wf = true → decode (encode i) = .instr i) ∧
  (∀ (b : Byte) (i : Instr), decode b = .instr i →
    opcodeField b = opcodeField (encode i) ∧
    (b = encode i ∨ ((i = .hlt ∨ i = .out) ∧ addrField (encode i) = 0x0#4)))

/-- A stretch of encoded instructions decodes to them, one byte each (R72, R75). -/
def Obligations.EncodedStretchDecodesBack : Prop :=
  ∀ is : List Instr, decodeAll (is.map encode) = some is ∧ (is.map encode).length = is.length

/-- R71: of the 256 bytes 80 decode to an instruction, 16 for each opcode, and 176 to invalid, which are those of opcode 5 to
15 (R70). -/
def Obligations.DecodingCountsOfTheByteSpace : Prop :=
  ((List.range 256).filter fun n => decide (decode (BitVec.ofNat 8 n) ≠ .invalid)).length = 80 ∧
  ((List.range 256).filter fun n => decide (decode (BitVec.ofNat 8 n) = .invalid)).length = 176 ∧
  (∀ b : Byte, decode b = .invalid ↔ 0x50 ≤ b.toNat) ∧
  (∀ a : Nibble, decode (0x0#4 ++ a) = .instr .hlt ∧ decode (0x1#4 ++ a) = .instr (.lda a) ∧
    decode (0x2#4 ++ a) = .instr (.add a) ∧ decode (0x3#4 ++ a) = .instr (.sub a) ∧ decode (0x4#4 ++ a) = .instr .out)

/-- The bytes that the spec's worked examples write out (95_test_vectors.md W9 to W13 and section 2.1). -/
def Obligations.ExampleBytesDecode : Prop :=
  decode 0x1A#8 = .instr (.lda 0xA#4) ∧ decode 0x2B#8 = .instr (.add 0xB#4) ∧ decode 0x3B#8 = .instr (.sub 0xB#4) ∧
  decode 0x40#8 = .instr .out ∧ decode 0x00#8 = .instr .hlt ∧ decode 0x0F#8 = .instr .hlt ∧
  decode 0x4F#8 = .instr .out ∧ decode 0x50#8 = .invalid ∧ decode 0xFF#8 = .invalid

/-! ### Each instruction completes, with its effect -/

/-- 41_instructions.md R92. Any byte of opcode 0 is HLT, and its canonical byte is 0x00. Executing it sets `halted`, writes
`ir` and advances `pc`, and changes nothing else. Every cycle after it is a HALTED no-op. -/
def Obligations.HltHaltsTheCore : Prop :=
  (∀ s : State, exec .hlt s =
    .next { pc := s.pc + 1#4, ir := fetch s, acc := s.acc, out := s.out, halted := true, mem := s.mem }) ∧
  (∀ a : Nibble, decode (0x0#4 ++ a) = .instr .hlt) ∧ encode .hlt = 0x00#8 ∧
  (∀ s : State, s.halted = false → opcodeField (fetch s) = 0x0#4 → step s = exec .hlt s) ∧
  (∀ (s t : State) (n : Nat), exec .hlt s = .next t →
    cycle t = (.haltedNoop, t) ∧ Host.Core.run core n t = .next t)

/-- 41_instructions.md R93. The byte of LDA a is `0x10 | a`. Executing it loads the cell at `a` into `acc`, writes `ir` and
advances `pc`, and changes nothing else. With `a = pc` it loads its own byte. -/
def Obligations.LdaLoadsTheCell : Prop :=
  (∀ (a : Addr) (s : State), exec (.lda a) s =
    .next { pc := s.pc + 1#4, ir := fetch s, acc := memRead s a, out := s.out, halted := s.halted, mem := s.mem }) ∧
  (∀ a : Addr, decode (0x1#4 ++ a) = .instr (.lda a) ∧ encode (.lda a) = 0x1#4 ++ a) ∧
  (∀ s : State, s.halted = false → opcodeField (fetch s) = 0x1#4 → step s = exec (.lda (addrField (fetch s))) s) ∧
  (∀ s t : State, exec (.lda s.pc) s = .next t → t.acc = fetch s ∧ t.acc = t.ir)

/-- 41_instructions.md R94. The byte of ADD a is `0x20 | a`. Executing it adds the cell at `a` to `acc` modulo 256, writes
`ir` and advances `pc`, and changes nothing else. -/
def Obligations.AddAddsModulo256 : Prop :=
  (∀ (a : Addr) (s : State), exec (.add a) s =
    .next { pc := s.pc + 1#4, ir := fetch s, acc := BitVec.ofNat 8 ((s.acc.toNat + (memRead s a).toNat) % 256),
            out := s.out, halted := s.halted, mem := s.mem }) ∧
  (∀ a : Addr, decode (0x2#4 ++ a) = .instr (.add a) ∧ encode (.add a) = 0x2#4 ++ a) ∧
  (∀ s : State, s.halted = false → opcodeField (fetch s) = 0x2#4 → step s = exec (.add (addrField (fetch s))) s)

/-- 41_instructions.md R95. The byte of SUB a is `0x30 | a`. Executing it subtracts the cell at `a` from `acc`, modulo 256
with the non-negative residue, writes `ir` and advances `pc`, and changes nothing else. -/
def Obligations.SubSubtractsModulo256 : Prop :=
  (∀ (a : Addr) (s : State), ∃ r : Byte,
    (r.toNat : Int) = ((s.acc.toNat : Int) - ((memRead s a).toNat : Int)) % 256 ∧
    exec (.sub a) s =
      .next { pc := s.pc + 1#4, ir := fetch s, acc := r, out := s.out, halted := s.halted, mem := s.mem }) ∧
  (∀ a : Addr, decode (0x3#4 ++ a) = .instr (.sub a) ∧ encode (.sub a) = 0x3#4 ++ a) ∧
  (∀ s : State, s.halted = false → opcodeField (fetch s) = 0x3#4 → step s = exec (.sub (addrField (fetch s))) s)

/-- 41_instructions.md R96. Any byte of opcode 4 is OUT, and its canonical byte is 0x40. Executing it copies `acc` to `out`,
writes `ir` and advances `pc`, and changes nothing else; the new value is on `out_q` afterwards. -/
def Obligations.OutCopiesTheAccumulator : Prop :=
  (∀ s : State, exec .out s =
    .next { pc := s.pc + 1#4, ir := fetch s, acc := s.acc, out := s.acc, halted := s.halted, mem := s.mem }) ∧
  (∀ a : Nibble, decode (0x4#4 ++ a) = .instr .out) ∧ encode .out = 0x40#8 ∧
  (∀ s : State, s.halted = false → opcodeField (fetch s) = 0x4#4 → step s = exec .out s) ∧
  (∀ s t : State, exec .out s = .next t → (ports t).outQ = s.acc)

/-! ### Frames -/

/-- What LDA, ADD and SUB leave unchanged (10_state.md R33, 20_memory.md R51): every register but `acc`, and `ir` and `pc`,
which every executed cycle writes; and every byte of memory. -/
def Obligations.FrameOfLdaAddSub : Prop :=
  ∀ (a : Addr) (i : Instr) (s t : State), (i = .lda a ∨ i = .add a ∨ i = .sub a) → exec i s = .next t →
    t.out = s.out ∧ t.halted = s.halted ∧ t.ir = fetch s ∧ t.pc = s.pc + 1#4 ∧ ∀ x : Addr, memRead t x = memRead s x

/-- What OUT leaves unchanged (R33, R51): every register but `out`, and `ir` and `pc`; and every byte of memory. -/
def Obligations.FrameOfOut : Prop :=
  ∀ s t : State, exec .out s = .next t →
    t.acc = s.acc ∧ t.halted = s.halted ∧ t.ir = fetch s ∧ t.pc = s.pc + 1#4 ∧ ∀ x : Addr, memRead t x = memRead s x

/-- What HLT leaves unchanged (R33, R51): every register but `halted`, and `ir` and `pc`; and every byte of memory. -/
def Obligations.FrameOfHlt : Prop :=
  ∀ s t : State, exec .hlt s = .next t →
    t.acc = s.acc ∧ t.out = s.out ∧ t.ir = fetch s ∧ t.pc = s.pc + 1#4 ∧ ∀ x : Addr, memRead t x = memRead s x

/-! ### The cycle -/

/-- A step runs the decoded instruction (40_cycle.md R78 to R82): in RUNNING, when the byte at `pc` decodes to `i`, the step
is `exec i`. A cycle writes `ir` and advances `pc` (R83, R84, R86); that `exec` itself does so, and the step adds nothing
around it, is the model's choice (log entry 1, DESIGN CHOICE). -/
def Obligations.StepRunsTheDecodedInstruction : Prop :=
  ∀ (s : State) (i : Instr), s.halted = false → decode (fetch s) = .instr i →
    step s = exec i s ∧ ∀ t, exec i s = .next t → t.ir = fetch s ∧ t.pc = s.pc + 1#4

/-- 40_cycle.md R77: a cycle of a HALTED core does nothing, whatever byte stands at `pc`, and so does every later one. -/
def Obligations.HaltedCycleDoesNothing : Prop :=
  ∀ s : State, s.halted = true →
    cycle s = (.haltedNoop, s) ∧ step s = .next s ∧ ∀ n, cycles n s = s ∧ Host.Core.run core n s = .next s

/-- 60_exceptions.md R101 and 40_cycle.md R85: a cycle returns `InvalidOpcode` exactly in RUNNING on a byte 0x50 to 0xFF,
with the pre-cycle `pc` and that byte; it changes no state; `status` shows binary 10 (R89, R101). That the model's step is a
fault there is the model's form of R104 (log entry 2, DEDUCED). -/
def Obligations.InvalidOpcodeChangesNoState : Prop :=
  (∀ (s : State) (pc : Addr) (f : Byte), (cycle s).1 = .invalidOpcode pc f ↔
    s.halted = false ∧ 0x50 ≤ (fetch s).toNat ∧ pc = s.pc ∧ f = fetch s) ∧
  (∀ (s : State), s.halted = false → 0x50 ≤ (fetch s).toNat →
    (cycle s).2 = s ∧ status s = 0b10#2 ∧ step s = .fault (.invalidOpcode s.pc (fetch s)))

/-- 60_exceptions.md R102: no instruction faults or is refused, a step faults only in RUNNING on an invalid byte, and no step
is refused. The fault is the model's form of R104 (log entry 2). -/
def Obligations.OnlyInvalidBytesStopAStep : Prop :=
  (∀ (i : Instr) (s : State), ∃ t, exec i s = .next t) ∧
  (∀ (s : State) (r : Fault), step s = .fault r ↔
    s.halted = false ∧ 0x50 ≤ (fetch s).toNat ∧ r = .invalidOpcode s.pc (fetch s)) ∧
  (∀ (s : State) (r : Refusal), step s ≠ .refused r)

/-- 60_exceptions.md R104: the fault ends every run of the model that meets it, and no such run finishes; a session records
it, no later operation clears it (what a reset does to the record is the model's choice, log entry 10, and is not stated
here), and a session with a fault on record is not final; on the hardware the state is unchanged, so that every later cycle
raises again. That the step is a fault is the model's form of R104 (log entry 2). -/
def Obligations.InvalidOpcodeIsRecordedAndRepeats : Prop :=
  (∀ s : State, s.halted = false → decode (fetch s) = .invalid →
    (∀ n, Host.Core.run core (n + 1) s = .fault (.invalidOpcode s.pc (fetch s))) ∧
    (∀ n t, runFor n s ≠ .finished t) ∧
    (∀ n, cycles n s = s ∧ (cycle (cycles n s)).1 = .invalidOpcode s.pc (fetch s))) ∧
  (∀ (x y : Session) (w : Answer), x.core.halted = false → decode (fetch x.core) = .invalid →
    x.apply .cycle = .ok (y, w) → y.fault.isSome = true ∧ y.core = x.core) ∧
  (∀ (x y : Session) (o : Operation) (w : Answer), o ≠ .reset → x.apply o = .ok (y, w) →
    x.fault.isSome = true → y.fault.isSome = true) ∧
  (∀ x : Session, x.fault.isSome = true → ¬ x.Final)

/-- The step of the model is the cycle of 40_cycle.md R86, with `InvalidOpcode` read as a fault (R104; log entry 2). The two are
written apart: the step through the decoder and the meanings, the cycle as the spec's one function. -/
def Obligations.StepIsTheCycleOfTheSpec : Prop :=
  ∀ s : State, step s =
    match cycle s with
    | (.executed, t) => .next t
    | (.haltedNoop, t) => .next t
    | (.invalidOpcode pc f, _) => .fault (.invalidOpcode pc f)

/-- The datapath of 40_cycle.md R88, with its adder, its two's-complement subtractor and its multiplexers, is the cycle of
R86; `status` (R89) tells the outcome beforehand and is never binary 11; with `rst`, `host_we` or without `step` the datapath
holds. -/
def Obligations.DatapathIsTheCycle : Prop :=
  (∀ s : State, datapathClock true false false s = (cycle s).2 ∧ status s = (cycle s).1.code ∧ status s ≠ 0b11#2) ∧
  (∀ s : State, status s = 0b10#2 → (cycle s).1 = .invalidOpcode (ports s).pcQ (ifData s)) ∧
  (∀ (st rst we : Bool) (s : State), (st && !rst && !we) = false → datapathClock st rst we s = s)

/-- A cycle reads no `ir` and no `out` (10_state.md R33, R39): what the host wrote to `ir` in RUNNING is gone after the next
step, and what it wrote to `pc` selects the next fetch. Host register writes are allowed in both states and leave `halted`. -/
def Obligations.HostWriteOfIrHasNoLaterEffect : Prop :=
  (∀ (s : State) (v : Int), s.halted = false → step (s.writeReg .ir v) = step s) ∧
  (∀ (s : State) (v : Int), fetch (s.writeReg .pc v) = memRead s (maskAddr v)) ∧
  (∀ (s : State) (r : RegName) (v : Int), (s.writeReg r v).halted = s.halted)

/-- 41_instructions.md R98 with 40_cycle.md R83: execution is straight-line. After `n` cycles that all executed without
halting, `pc` has advanced by `n` modulo 16. -/
def Obligations.ProgramCounterAfterCycles : Prop :=
  ∀ (n : Nat) (s t : State), Host.Core.run core n s = .next t → t.halted = false → t.pc = s.pc + BitVec.ofNat 4 n

/-! ### Invariants and rules of the whole machine -/

/-- Every step keeps the memory's canonical form and the mark of an executed HLT: a HALTED core holds in `ir` the HLT byte
that stands just below `pc` (R23, R84, R92). The canonical form is the model's (log entry 3). -/
def Obligations.StepKeepsMemoryFormAndHaltTrace : Prop :=
  ∀ s t : State, s.Inv → s.HaltTrace → step s = .next t → t.Inv ∧ t.HaltTrace

/-- The invariant of `StepKeepsMemoryFormAndHaltTrace` holds after reset. That `State.reset` comes with a newly
built memory is the model's reading (log entry 3). -/
def Obligations.ResetHasMemoryFormAndHaltTrace : Prop := State.reset.Inv ∧ State.reset.HaltTrace

/-- Whatever the host does in a session, and at whatever clock edge, the memory keeps its canonical form, so that every cell
holds one byte (20_memory.md R46, R47). The canonical form is the model's (log entry 3). -/
def Obligations.SessionsAndEdgesKeepMemoryForm : Prop :=
  (∀ (os : List Operation) (x y : Session), x.core.Inv → x.run os = .ok y → y.core.Inv) ∧
  (∀ (i : EdgeInputs) (s t : State), s.Inv → clockEdge i s = .next t → t.Inv)

/-- 10_state.md R26 and R40: `halted` starts as false; only HLT sets it; no instruction and no operation of the host but a
reset clears it, and a reset does. -/
def Obligations.HaltedIsSetByHltAndClearedByReset : Prop :=
  State.reset.halted = false ∧
  (∀ s t : State, step s = .next t → s.halted = false → t.halted = true → decode (fetch s) = .instr .hlt) ∧
  (∀ s t : State, step s = .next t → s.halted = true → t.halted = true) ∧
  (∀ s : State, (cycle s).2.halted = true ↔ s.halted = true ∨ decode (fetch s) = .instr .hlt) ∧
  (∀ (x y : Session) (o : Operation) (w : Answer), x.apply o = .ok (y, w) → o ≠ .cycle → o ≠ .reset →
    y.core.halted = x.core.halted) ∧
  (∀ (x y : Session) (w : Answer), x.apply .reset = .ok (y, w) → y.core.halted = false)

/-- 20_memory.md R51: no instruction and no run of cycles writes memory, and of all operations only the host's memory write
can change it. -/
def Obligations.TheCoreNeverWritesMemory : Prop :=
  (∀ (i : Instr) (s t : State), exec i s = .next t → t.mem = s.mem) ∧
  (∀ (n : Nat) (s t : State), Host.Core.run core n s = .next t → t.mem = s.mem) ∧
  (∀ (n : Nat) (s : State), (cycles n s).mem = s.mem) ∧
  (∀ (x y : Session) (o : Operation) (w : Answer), x.apply o = .ok (y, w) → (∀ a v, o ≠ .memWrite a v) →
    y.core.mem = x.core.mem)

/-- The output latch (10_state.md R25, R43; 60_exceptions.md R110): of all steps only one that runs OUT changes what `out_q`
shows, and then it shows the accumulator. -/
def Obligations.OutputLatchChangesOnlyByOut : Prop :=
  ∀ s t : State, step s = .next t → (ports t).outQ ≠ (ports s).outQ →
    decode (fetch s) = .instr .out ∧ (ports t).outQ = s.acc

/-! ### How a run ends -/

/-- 40_cycle.md R91: a run that ends well ends at a cycle that executes HLT, reached by cycles that all left the core
RUNNING or were its start. -/
def Obligations.FinishedRunExecutedHlt : Prop :=
  ∀ (n : Nat) (s t : State), runFor n s = .finished t →
    ∃ k u, k < n ∧ Host.Core.run core k s = .next u ∧ u.halted = false ∧ decode (fetch u) = .instr .hlt ∧
      step u = .next t ∧ t.halted = true

/-- 41_instructions.md R98 and 40_cycle.md R91: the run ends at the first HLT in sequence. If the cells at `pc`, `pc + 1`, …
before the one at distance `k` hold instructions other than HLT, and that one holds HLT, the run finishes in exactly `k + 1`
cycles, just after it. -/
def Obligations.FirstHltInSequenceEndsTheRun : Prop :=
  ∀ (k : Nat) (s : State), s.halted = false →
    (∀ j < k, ∃ i, decode (memRead s (s.pc + BitVec.ofNat 4 j)) = .instr i ∧ i ≠ .hlt) →
    decode (memRead s (s.pc + BitVec.ofNat 4 k)) = .instr .hlt →
    (∃ t, runFor (k + 1) s = .finished t ∧ t.halted = true ∧ t.mem = s.mem ∧ t.pc = s.pc + BitVec.ofNat 4 (k + 1) ∧
      t.ir = memRead s (s.pc + BitVec.ofNat 4 k)) ∧
    (∀ n ≤ k, ∃ u, runFor n s = .running u ∧ u.pc = s.pc + BitVec.ofNat 4 n)

/-- 41_instructions.md R98 with 60_exceptions.md R102: if every cell holds an instruction, the core always ends within 16
cycles when some cell holds HLT, without a fault, and never ends when none does. -/
def Obligations.RunEndsWithinSixteenCyclesIfSomeCellIsHlt : Prop :=
  ∀ s : State, s.halted = false → AllCellsDecode s.mem →
    FaultFree s ∧
    ((∃ a : Addr, decode (s.mem.read a) = .instr .hlt) → ∃ n ≤ 16, ∃ t, runFor n s = .finished t) ∧
    ((∀ a : Addr, decode (s.mem.read a) ≠ .instr .hlt) → ∀ n, ∃ u, runFor n s = .running u ∧ u.halted = false)

/-! ### Reset, the host and the clock edge -/

/-- 10_state.md R36 and 70_reset_and_hazards.md R114, R116: the registers after reset; at an edge with `rst` they take those
values whatever `step` and `host_we` are, and memory does not change. -/
def Obligations.ResetLoadsTheResetValues : Prop :=
  (State.reset.pc = 0x0#4 ∧ State.reset.ir = 0x00#8 ∧ State.reset.acc = 0x00#8 ∧ State.reset.out = 0x00#8 ∧
    State.reset.halted = false) ∧
  (∀ (i : EdgeInputs) (s : State), i.rst = true → i.memWrite = none → clockEdge i s =
    .next { pc := 0x0#4, ir := 0x00#8, acc := 0x00#8, out := 0x00#8, halted := false, mem := s.mem }) ∧
  (∀ (x y : Session) (w : Answer), x.apply .reset = .ok (y, w) →
    y.core = { pc := 0x0#4, ir := 0x00#8, acc := 0x00#8, out := 0x00#8, halted := false, mem := x.core.mem })

/-- 10_state.md R44: the order in which the core's inputs take effect at an edge. -/
def Obligations.EdgeInputsTakeEffectInOrder : Prop :=
  ∀ (i : EdgeInputs) (s : State), i.memWrite = none →
    (i.rst = true → clockEdge i s = .next { State.reset with mem := s.mem }) ∧
    (i.rst = false → i.step = true → i.hostWe = true → clockEdge i s = .refused .stepWithHostWrite) ∧
    (i.rst = false → i.step = true → i.hostWe = false → clockEdge i s = step s) ∧
    (i.rst = false → i.step = false → i.hostWe = true → clockEdge i s = .next
      (if i.hostSel = 0#2 then { s with pc := i.hostWdata.extractLsb' 0 4 }
       else if i.hostSel = 1#2 then { s with ir := i.hostWdata }
       else if i.hostSel = 2#2 then { s with acc := i.hostWdata }
       else { s with out := i.hostWdata })) ∧
    (i.rst = false → i.step = false → i.hostWe = false → clockEdge i s = .next s)

/-- 70_reset_and_hazards.md R122, D15: a host memory write at the edge of a cycle is refused; alone at its edge it is the host
write of R54. -/
def Obligations.MemoryWriteAtTheEdgeOfACycleIsRefused : Prop :=
  ∀ (i : EdgeInputs) (s : State) (a v : Int), i.memWrite = some (a, v) →
    (i.rst = false → i.step = true → clockEdge i s = .refused .memoryWriteWithOtherOperation) ∧
    (i.rst = false → i.step = false → i.hostWe = false → ∀ t, (hostMemWrite s a v = .ok t ↔ clockEdge i s = .next t))

/-- 10_state.md R27 and R38: a host register write stores the value modulo 16 in `pc` and modulo 256 in the others, with the
non-negative residue, and changes nothing else. -/
def Obligations.HostRegisterWriteIsMasked : Prop :=
  ∀ (s : State) (r q : RegName) (v : Int),
    ((s.writeReg r v).readReg r : Int) = v % (if r = .pc then 16 else 256) ∧
    (q ≠ r → (s.writeReg r v).readReg q = s.readReg q) ∧
    (s.writeReg r v).halted = s.halted ∧ (s.writeReg r v).mem = s.mem

/-- 10_state.md R37: a host read of a register or of `halted` returns the stored value and changes no state. -/
def Obligations.HostRegisterReadChangesNothing : Prop :=
  (∀ (x : Session) (r : RegName), x.apply (.readReg r) = .ok (x, .value (x.core.readReg r))) ∧
  (∀ x : Session, x.apply .readHalted = .ok (x, .flag x.core.halted)) ∧
  (∀ s : State, s.readReg .pc = s.pc.toNat ∧ s.readReg .ir = s.ir.toNat ∧ s.readReg .acc = s.acc.toNat ∧
    s.readReg .out = s.out.toNat)

/-- 20_memory.md R52 and R53: a host read at a natural address returns the cell at that address modulo 16; at a negative
address it is refused. A read changes no state. -/
def Obligations.HostReadsModuloSixteen : Prop :=
  (∀ (s : State) (n : Nat), hostMemRead s n = .ok (memRead s (BitVec.ofNat 4 (n % 16)))) ∧
  (∀ (s : State) (a : Int), a < 0 → hostMemRead s a = .error (.hostReadNegativeAddress a)) ∧
  (∀ (x y : Session) (a : Int) (w : Answer), x.apply (.memRead a) = .ok (y, w) → y = x)

/-- 20_memory.md R54 and R55: a host write at an address in [0, 15] stores the value modulo 256 in that cell and writes
nothing else; outside it is refused. The canonical form of the memory is a premise (`SessionsAndEdgesKeepMemoryForm`). -/
def Obligations.HostWriteStoresOneByte : Prop :=
  (∀ (s : State) (a : Addr) (v : Int), s.Inv → ∃ t, hostMemWrite s a.toNat v = .ok t ∧
    ((memRead t a).toNat : Int) = v % 256 ∧ (∀ b : Addr, b ≠ a → memRead t b = memRead s b) ∧
    t = { s with mem := t.mem }) ∧
  (∀ (s : State) (a v : Int), (a < 0 ∨ 15 < a) → hostMemWrite s a v = .error (.hostWriteOutsideMemory a))

/-- 20_memory.md R63: what the host wrote is what the next cycle fetches and reads as its operand. -/
def Obligations.HostWriteIsSeenByTheNextCycle : Prop :=
  ∀ (s : State) (v : Int), s.Inv →
    (∀ t, hostMemWrite s s.pc.toNat v = .ok t → fetch t = maskByte v) ∧
    (∀ (a : Addr) (t u : State), a ≠ s.pc → s.halted = false → decode (fetch s) = .instr (.lda a) →
      hostMemWrite s a.toNat v = .ok t → step t = .next u → u.acc = maskByte v)

/-- 20_memory.md R61: in the one order of cycles and host operations, from reset, a cell holds the value of the last write to
it, or 0 if there was none. R61 counts from when the memory was built; that the order of operations begins there, because
`State.reset` comes with a newly built memory, is the model's reading (log entry 3). -/
def Obligations.CellHoldsTheLastWrite : Prop :=
  ∀ (os : List Operation) (y : Session), Session.start.run os = .ok y →
    ∀ a : Addr, memRead y.core a = lastWritten os a

/-- 70_reset_and_hazards.md R119: "Steps (2) and (3) may swap, because reset does not touch memory". Loading an image after
the reset or before it leads to the same session. -/
def Obligations.ResetAndLoadingMaySwap : Prop :=
  ∀ (x : Session) (image : List (Int × Int)),
    x.run (bootOperations image []) = x.run ((image.map fun p => Operation.memWrite p.1 p.2) ++ [.reset])

/-- 20_memory.md R59: a cell that was never written holds 0, and fetched in RUNNING it executes as HLT; so does the first
cycle after reset with nothing loaded, at address 0. That `State.reset` comes with a newly built memory is the model's
reading (log entry 3). -/
def Obligations.UnwrittenCellExecutesAsHlt : Prop :=
  (∀ s : State, s.halted = false → fetch s = 0x00#8 →
    step s = .next { s with pc := s.pc + 1#4, ir := 0x00#8, halted := true }) ∧
  (∀ a : Addr, memRead State.reset a = 0x00#8) ∧ ifAddr State.reset = 0x0#4 ∧
  step State.reset = .next { State.reset with pc := 0x1#4, halted := true }

/-! ### The assembler -/

/-- 30_encoding.md R75: the canonical bytes, and the disassembly of all sixteen encodings of HLT and of OUT; every
instruction's byte disassembles to the statement it is written as. -/
def Obligations.AssemblerEncodings : Prop :=
  encode .hlt = 0x00#8 ∧ encode .out = 0x40#8 ∧
  (∀ a : Addr, encode (.lda a) = 0x10#8 ||| a.setWidth 8 ∧ encode (.add a) = 0x20#8 ||| a.setWidth 8 ∧
    encode (.sub a) = 0x30#8 ||| a.setWidth 8) ∧
  (∀ x : Nibble, disassemble (0x0#4 ++ x) = .hlt ∧ disassemble (0x4#4 ++ x) = .out) ∧
  (∀ i : Instr, disassemble (encode i) = Statement.ofInstr i)

/-- 30_encoding.md R73, R74: a numeral outside its range is an assembly error, wherever the statement stands. -/
def Obligations.NumeralOutOfRangeIsAnAssemblyError : Prop :=
  ∀ (n cur : Nat) (m : Memory) (rest : List Statement),
    (15 < n → ∀ st ∈ [Statement.lda n, .add n, .sub n, .org n],
      assembleFrom cur m (st :: rest) = .error .numeralOutOfRange) ∧
    (255 < n → assembleFrom cur m (.byte n :: rest) = .error .numeralOutOfRange)

/-- 30_encoding.md R74, R75: assembling a list of at most 16 instructions places the canonical byte of the k-th at address k,
and leaves every later cell 0. The canonical form of the memory is the model's (log entry 3). -/
def Obligations.AssembledInstructionsReadBack : Prop :=
  ∀ is : List Instr, is.length ≤ 16 → ∃ m, assemble (is.map Statement.ofInstr) = .ok m ∧ m.wf = true ∧
    ∀ a : Addr, m.read a = (is[a.toNat]?).elim 0x00#8 encode

/-- 30_encoding.md R73, R74: the text of a statement is read back as that statement. How a statement is spaced and in which
base its numeral is written is the model's choice (log entry 8). -/
def Obligations.StatementTextReadsBack : Prop :=
  ∀ st : Statement, st.wf = true → parseLine st.text = .ok (some st)
end

