-- ==== Sys2Proof/Laws/Decode.lean ====
section
/-! SUPPORT. The opcode map is unambiguous, and the decoder reads it (30_encoding.md R68 to R71). -/

namespace Sys2Proof

/-- No byte lies in two rows of the opcode map. -/
theorem opcodeTable_rows_disjoint :
    opcodeTable.Pairwise (fun r q => ∀ b : Byte, (r.covers b && q.covers b) = false) := by
  unfold opcodeTable
  simp only [List.pairwise_cons, List.mem_cons, List.not_mem_nil, or_false, forall_eq_or_imp, forall_eq,
    List.Pairwise.nil, and_true, false_implies, implies_true]
  decide +revert

@[simp] theorem addrNumeralWf_iff (n : Nat) : addrNumeralWf n = true ↔ n < 16 := decide_eq_true_iff

@[simp] theorem byteNumeralWf_iff (n : Nat) : byteNumeralWf n = true ↔ n < 256 := decide_eq_true_iff

/-- Every operand names a cell (20_memory.md R50). -/
theorem instr_wf (i : Instr) : i.wf = true := by
  cases i <;> first | rfl | exact (addrNumeralWf_iff _).2 (BitVec.isLt _)

/-- What the opcode alone says of the decoded instruction. -/
theorem decode_of_opcode (b : Byte) :
    decode b =
      if opcodeField b = 0x0#4 then .instr .hlt
      else if opcodeField b = 0x1#4 then .instr (.lda (addrField b))
      else if opcodeField b = 0x2#4 then .instr (.add (addrField b))
      else if opcodeField b = 0x3#4 then .instr (.sub (addrField b))
      else if opcodeField b = 0x4#4 then .instr .out
      else .invalid := by
  revert b
  decide

end Sys2Proof
end

