-- ==== Sys2Proof/Laws/State.lean ====
section
/-! SUPPORT. What each register update does to each field, and what the masks compute. -/

namespace Sys2Proof.Machine

@[simp] theorem State.writePc_pc (s : State) (v : Int) : (s.writePc v).pc = maskAddr v := rfl
@[simp] theorem State.writePc_ir (s : State) (v : Int) : (s.writePc v).ir = s.ir := rfl
@[simp] theorem State.writePc_acc (s : State) (v : Int) : (s.writePc v).acc = s.acc := rfl
@[simp] theorem State.writePc_out (s : State) (v : Int) : (s.writePc v).out = s.out := rfl
@[simp] theorem State.writePc_halted (s : State) (v : Int) : (s.writePc v).halted = s.halted := rfl
@[simp] theorem State.writePc_mem (s : State) (v : Int) : (s.writePc v).mem = s.mem := rfl

@[simp] theorem State.writeIr_pc (s : State) (v : Int) : (s.writeIr v).pc = s.pc := rfl
@[simp] theorem State.writeIr_ir (s : State) (v : Int) : (s.writeIr v).ir = maskByte v := rfl
@[simp] theorem State.writeIr_acc (s : State) (v : Int) : (s.writeIr v).acc = s.acc := rfl
@[simp] theorem State.writeIr_out (s : State) (v : Int) : (s.writeIr v).out = s.out := rfl
@[simp] theorem State.writeIr_halted (s : State) (v : Int) : (s.writeIr v).halted = s.halted := rfl
@[simp] theorem State.writeIr_mem (s : State) (v : Int) : (s.writeIr v).mem = s.mem := rfl

@[simp] theorem State.writeAcc_pc (s : State) (v : Int) : (s.writeAcc v).pc = s.pc := rfl
@[simp] theorem State.writeAcc_ir (s : State) (v : Int) : (s.writeAcc v).ir = s.ir := rfl
@[simp] theorem State.writeAcc_acc (s : State) (v : Int) : (s.writeAcc v).acc = maskByte v := rfl
@[simp] theorem State.writeAcc_out (s : State) (v : Int) : (s.writeAcc v).out = s.out := rfl
@[simp] theorem State.writeAcc_halted (s : State) (v : Int) : (s.writeAcc v).halted = s.halted := rfl
@[simp] theorem State.writeAcc_mem (s : State) (v : Int) : (s.writeAcc v).mem = s.mem := rfl

@[simp] theorem State.writeOut_pc (s : State) (v : Int) : (s.writeOut v).pc = s.pc := rfl
@[simp] theorem State.writeOut_ir (s : State) (v : Int) : (s.writeOut v).ir = s.ir := rfl
@[simp] theorem State.writeOut_acc (s : State) (v : Int) : (s.writeOut v).acc = s.acc := rfl
@[simp] theorem State.writeOut_out (s : State) (v : Int) : (s.writeOut v).out = maskByte v := rfl
@[simp] theorem State.writeOut_halted (s : State) (v : Int) : (s.writeOut v).halted = s.halted := rfl
@[simp] theorem State.writeOut_mem (s : State) (v : Int) : (s.writeOut v).mem = s.mem := rfl

@[simp] theorem State.setHalted_pc (s : State) : s.setHalted.pc = s.pc := rfl
@[simp] theorem State.setHalted_ir (s : State) : s.setHalted.ir = s.ir := rfl
@[simp] theorem State.setHalted_acc (s : State) : s.setHalted.acc = s.acc := rfl
@[simp] theorem State.setHalted_out (s : State) : s.setHalted.out = s.out := rfl
@[simp] theorem State.setHalted_halted (s : State) : s.setHalted.halted = true := rfl
@[simp] theorem State.setHalted_mem (s : State) : s.setHalted.mem = s.mem := rfl

@[simp] theorem State.applyReset_pc (s : State) : s.applyReset.pc = 0x0#4 := rfl
@[simp] theorem State.applyReset_ir (s : State) : s.applyReset.ir = 0x00#8 := rfl
@[simp] theorem State.applyReset_acc (s : State) : s.applyReset.acc = 0x00#8 := rfl
@[simp] theorem State.applyReset_out (s : State) : s.applyReset.out = 0x00#8 := rfl
@[simp] theorem State.applyReset_halted (s : State) : s.applyReset.halted = false := rfl
@[simp] theorem State.applyReset_mem (s : State) : s.applyReset.mem = s.mem := rfl

/-! ### The masks of 10_state.md R27 -/

theorem maskByte_toNat (v : Int) : (maskByte v).toNat = (v % 256).toNat := by
  simp [maskByte]

theorem maskAddr_toNat (v : Int) : (maskAddr v).toNat = (v % 16).toNat := by
  simp [maskAddr]

/-- A value that is in range is stored as it is (20_memory.md R47). -/
@[simp] theorem maskByte_of_byte (b : Byte) : maskByte (b.toNat : Int) = b := by
  simp [maskByte]

@[simp] theorem maskAddr_of_addr (a : Addr) : maskAddr (a.toNat : Int) = a := by
  simp [maskAddr]

/-- The advance of `pc` wraps from 0xF to 0x0 (40_cycle.md R83). -/
@[simp] theorem maskAddr_succ (a : Addr) : maskAddr ((a.toNat : Int) + 1) = a + 1#4 := by
  apply BitVec.eq_of_toNat_eq
  have := a.isLt
  rw [maskAddr_toNat, BitVec.toNat_add]
  simp
  omega

/-! ### A host register write (10_state.md R38, R39) -/

@[simp] theorem State.writeReg_halted (s : State) (r : RegName) (v : Int) : (s.writeReg r v).halted = s.halted := by
  cases r <;> rfl

@[simp] theorem State.writeReg_mem (s : State) (r : RegName) (v : Int) : (s.writeReg r v).mem = s.mem := by
  cases r <;> rfl

/-! ### What every executed cycle commits (40_cycle.md R83, R84) -/

@[simp] theorem commitFetch_pc (s : State) : (commitFetch s).pc = s.pc + 1#4 := by simp [commitFetch]
@[simp] theorem commitFetch_ir (s : State) : (commitFetch s).ir = fetch s := by simp [commitFetch]
@[simp] theorem commitFetch_acc (s : State) : (commitFetch s).acc = s.acc := rfl
@[simp] theorem commitFetch_out (s : State) : (commitFetch s).out = s.out := rfl
@[simp] theorem commitFetch_halted (s : State) : (commitFetch s).halted = s.halted := rfl
@[simp] theorem commitFetch_mem (s : State) : (commitFetch s).mem = s.mem := rfl

end Sys2Proof.Machine
end

