-- ==== Sys2Proof/Laws/Memory.lean ====
section
/-! SUPPORT. The memory: read after write, and the canonical form that every operation keeps. -/

namespace Sys2Proof.Machine.Memory

@[simp] theorem read_new (a : Addr) : Memory.read Memory.new a = Memory.unlisted := rfl

/-! ### The canonical form -/

theorem wfFrom_cons {lo k : Nat} {v : Byte} {m : Memory} :
    wfFrom lo ((k, v) :: m) = true ↔
      lo ≤ k ∧ k < Config.memCapacity ∧ v ≠ unlisted ∧ wfFrom (k + 1) m = true := by
  simp [wfFrom, and_assoc]

theorem wfFrom_mono {lo lo' : Nat} (h : lo' ≤ lo) {m : Memory} (hm : wfFrom lo m = true) : wfFrom lo' m = true := by
  cases m with
  | nil => rfl
  | cons c m =>
    obtain ⟨k, v⟩ := c
    rw [wfFrom_cons] at hm ⊢
    exact ⟨h.trans hm.1, hm.2⟩

/-- Below the first listed address nothing is listed. -/
theorem lookup_of_lt {lo a : Nat} (h : a < lo) {m : Memory} (hm : wfFrom lo m = true) : lookup m a = unlisted := by
  induction m generalizing lo with
  | nil => rfl
  | cons c m ih =>
    obtain ⟨k, v⟩ := c
    obtain ⟨hk, -, -, hm⟩ := wfFrom_cons.1 hm
    have : k ≠ a := by omega
    simp only [lookup, this, if_false]
    exact ih (by omega) hm

theorem wfFrom_store {lo a : Nat} (v : Byte) {m : Memory} (hm : wfFrom lo m = true) (ha : lo ≤ a)
    (hc : a < Config.memCapacity) : wfFrom lo (store m a v) = true := by
  induction m generalizing lo with
  | nil =>
    by_cases hv : v = unlisted
    · simp [store, hv, wfFrom]
    · simp only [store, hv, if_false]
      exact wfFrom_cons.2 ⟨ha, hc, hv, rfl⟩
  | cons c m ih =>
    obtain ⟨k, w⟩ := c
    have hall := hm
    obtain ⟨hk, hkc, hw, hm⟩ := wfFrom_cons.1 hm
    by_cases hlt : a < k
    · by_cases hv : v = unlisted
      · simpa [store, hlt, hv] using hall
      · simp only [store, hlt, hv, if_true, if_false]
        exact wfFrom_cons.2 ⟨ha, hc, hv, wfFrom_cons.2 ⟨hlt, hkc, hw, hm⟩⟩
    · by_cases he : a = k
      · subst he
        by_cases hv : v = unlisted
        · simp only [store, hv, if_true, lt_irrefl, if_false]
          exact wfFrom_mono (by omega) hm
        · simp only [store, hv, if_true, lt_irrefl, if_false]
          exact wfFrom_cons.2 ⟨ha, hc, hv, hm⟩
      · simp only [store, hlt, he, if_false]
        exact wfFrom_cons.2 ⟨hk, hkc, hw, ih hm (by omega)⟩

/-! ### Read after write -/

theorem lookup_store_same {lo a : Nat} (v : Byte) {m : Memory} (hm : wfFrom lo m = true) :
    lookup (store m a v) a = v := by
  induction m generalizing lo with
  | nil => by_cases hv : v = unlisted <;> simp [store, lookup, hv]
  | cons c m ih =>
    obtain ⟨k, w⟩ := c
    obtain ⟨-, -, -, hm⟩ := wfFrom_cons.1 hm
    by_cases hlt : a < k
    · by_cases hv : v = unlisted
      · have hk : k ≠ a := by omega
        simp only [store, hlt, hv, if_true, lookup, hk, if_false]
        exact lookup_of_lt (by omega) hm
      · simp [store, hlt, hv, lookup]
    · by_cases he : a = k
      · subst he
        by_cases hv : v = unlisted
        · simp only [store, hv, if_true, lt_irrefl, if_false]
          exact lookup_of_lt (by omega) hm
        · simp [store, hv, lookup]
      · have hk : k ≠ a := fun h => he h.symm
        simp only [store, hlt, he, if_false, lookup, hk]
        exact ih hm

theorem lookup_store_other {a b : Nat} (v : Byte) (m : Memory) (h : b ≠ a) :
    lookup (store m a v) b = lookup m b := by
  induction m with
  | nil => by_cases hv : v = unlisted <;> simp [store, lookup, hv, h.symm]
  | cons c m ih =>
    obtain ⟨k, w⟩ := c
    by_cases hlt : a < k
    · by_cases hv : v = unlisted <;> simp [store, hlt, hv, lookup, h.symm]
    · by_cases he : a = k
      · subst he
        by_cases hv : v = unlisted <;> simp [store, hv, lookup, h.symm]
      · simp only [store, hlt, he, if_false, lookup, ih]

/-- A write to a cell keeps the canonical form. -/
theorem wf_write {m : Memory} (hm : m.wf = true) (a : Addr) (v : Byte) : (m.write a v).wf = true :=
  wfFrom_store v hm (Nat.zero_le _) a.isLt

/-- A read of the cell written gives the value written. -/
theorem read_write_same {m : Memory} (hm : m.wf = true) (a : Addr) (v : Byte) : (m.write a v).read a = v :=
  lookup_store_same v hm

/-- Every other cell reads as before. -/
theorem read_write_other (m : Memory) {a b : Addr} (h : b ≠ a) (v : Byte) : (m.write a v).read b = m.read b :=
  lookup_store_other v m fun e => h (BitVec.eq_of_toNat_eq e)

theorem wf_new : Memory.new.wf = true := rfl

end Sys2Proof.Machine.Memory

namespace Sys2Proof.Machine

theorem State.reset_mem_wf : State.reset.mem.wf = true := rfl

/-! ### The host's memory access (20_memory.md R52 to R55) -/

/-- All that a host write can do. -/
theorem hostMemWrite_ok {s t : State} {a v : Int} (h : hostMemWrite s a v = .ok t) :
    (0 ≤ a ∧ a < Config.memCapacity) ∧ t = { s with mem := s.mem.write (maskAddr a) (maskByte v) } := by
  unfold hostMemWrite at h
  split at h
  · exact ⟨‹_›, by simpa using h.symm⟩
  · cases h

theorem hostMemWrite_keeps_wf {s t : State} {a v : Int} (hs : s.mem.wf = true) (h : hostMemWrite s a v = .ok t) :
    t.mem.wf = true := by
  obtain ⟨-, rfl⟩ := hostMemWrite_ok h
  exact Memory.wf_write hs _ _

end Sys2Proof.Machine
end

