-- ==== Sys2Proof/Laws/PerInstr.lean ====
section
/-! SUPPORT. Statements about every instruction, one lemma per constructor. -/

/-- The canonical byte of an instruction lies in the row of the opcode map that bears its mnemonic, and in no other row
(30_encoding.md R68, R75). -/
def Sys2Proof.Laws.EncodesInRow.Statement (i : Sys2Proof.Instr) : Prop :=
  ((Sys2Proof.opcodeTable.filter fun r => r.covers (Sys2Proof.encode i)).map fun r => r.mnemonic) = [i.mnemonic]

namespace Sys2Proof.Laws.EncodesInRow

theorem hlt : Statement .hlt := by
  unfold Statement; decide

theorem lda (a : Addr) : Statement (.lda a) := by
  unfold Statement; revert a; decide

theorem add (a : Addr) : Statement (.add a) := by
  unfold Statement; revert a; decide

theorem sub (a : Addr) : Statement (.sub a) := by
  unfold Statement; revert a; decide

theorem out : Statement .out := by
  unfold Statement; decide

end Sys2Proof.Laws.EncodesInRow
end

