-- ==== Sys2Proof/Laws/Step.lean ====
section
/-! SUPPORT. What a step can do, said once: the proofs about steps cite these lemmas and do not unfold the step. -/

namespace Sys2Proof.Machine

@[simp] theorem memRead_commitFetch (s : State) (a : Addr) : memRead (commitFetch s) a = memRead s a := rfl

/-- Everything an instruction can do: it answers a next state, which is `commitFetch s` but for the registers its handler
writes (41_instructions.md R92 to R96). -/
theorem exec_cases (i : Instr) (s : State) :
    (i = .hlt ∧ exec i s = .next { commitFetch s with halted := true }) ∨
    (∃ a, i = .lda a ∧ exec i s = .next { commitFetch s with acc := memRead s a }) ∨
    (∃ a, i = .add a ∧ exec i s = .next { commitFetch s with acc := s.acc + memRead s a }) ∨
    (∃ a, i = .sub a ∧ exec i s = .next { commitFetch s with acc := s.acc - memRead s a }) ∨
    (i = .out ∧ exec i s = .next { commitFetch s with out := s.acc }) := by
  cases i with
  | hlt => exact .inl ⟨rfl, rfl⟩
  | lda a =>
    refine .inr (.inl ⟨a, rfl, ?_⟩)
    simp [exec, execLda, State.writeAcc, operandValue]
  | add a =>
    refine .inr (.inr (.inl ⟨a, rfl, ?_⟩))
    simp [exec, execAdd, State.writeAcc, operandValue, accValue, sumValue, maskByte, BitVec.ofInt_add]
  | sub a =>
    refine .inr (.inr (.inr (.inl ⟨a, rfl, ?_⟩)))
    have h : maskByte ((s.acc.toNat : Int) - (memRead s a).toNat) = s.acc - memRead s a := by
      apply BitVec.eq_of_toNat_eq
      have h1 := s.acc.isLt
      have h2 := (memRead s a).isLt
      rw [maskByte_toNat, BitVec.toNat_sub]
      omega
    simp [exec, execSub, State.writeAcc, operandValue, accValue, differenceValue, h]
  | out =>
    refine .inr (.inr (.inr (.inr ⟨rfl, ?_⟩)))
    simp [exec, execOut, State.writeOut, accValue]

/-- A step that answers a next state was a HALTED no-op, or ran the instruction at `pc` (40_cycle.md R77, R84). -/
theorem step_next {s t : State} (h : step s = .next t) :
    (s.halted = true ∧ t = s) ∨ (s.halted = false ∧ ∃ i, decode (fetch s) = .instr i ∧ exec i s = .next t) := by
  unfold step at h
  split at h
  · exact .inl ⟨‹_›, by simpa using h.symm⟩
  · refine .inr ⟨by simpa using ‹¬ s.halted = true›, ?_⟩
    split at h
    · exact ⟨_, ‹_›, h⟩
    · cases h

/-- The next step of `s.withFetchWord nbits w` is in RUNNING and fetches that byte. -/
theorem withFetchWord_fetch {s : State} (hs : s.mem.wf = true) (nbits w : Nat) :
    (s.withFetchWord nbits w).halted = false ∧
      fetch (s.withFetchWord nbits w) = BitVec.ofNat 8 (w % 2 ^ nbits) :=
  ⟨rfl, Memory.read_write_same hs s.pc _⟩

end Sys2Proof.Machine
end

