-- ==== Sys2Proof/Tests/Slice0.lean ====
section
/-! SUPPORT. The model's own tests. Expected values come from the spec: 95_test_vectors.md (W<n> and its sections), or the
rule named. The last part shows, for each statement that has hypotheses, a state and operands that meet them. -/

namespace Sys2Proof.Machine.Tests

/-- A state with the cells given and every other cell 0. -/
def st (pc : Addr) (ir acc out : Byte) (halted : Bool) (cells : List (Addr × Byte)) : State :=
  ⟨pc, ir, acc, out, halted, cells.foldl (fun m c => m.write c.1 c.2) Memory.new⟩

/-- The registers after one step, none where the step stops. -/
def after (s : State) : Option (Addr × Byte × Byte × Byte × Bool) :=
  match step s with
  | .next t => some (t.pc, t.ir, t.acc, t.out, t.halted)
  | _ => none

/-- The fault of one step. -/
def faultOf (s : State) : Option Fault :=
  match step s with
  | .fault r => some r
  | _ => none

/-- What an edge refuses. -/
def refusalAt (i : EdgeInputs) (s : State) : Option Refusal :=
  match clockEdge i s with
  | .refused r => some r
  | _ => none

/-! ### Ill-formed terms are refused (R73, R74) -/

theorem test_addrNumeral_16_refused : addrNumeralWf 16 = false ∧ addrNumeralWf 15 = true := by decide
theorem test_byteNumeral_256_refused : byteNumeralWf 256 = false ∧ byteNumeralWf 255 = true := by decide
theorem test_illFormed_statements_refused :
    ∀ st ∈ [Statement.lda 16, .add 16, .sub 16, .org 16, .byte 256], st.wf = false := by decide
theorem test_instr_operand_at_last_cell_wf : (Instr.lda 0xF#4).wf = true := by decide

/-! ### Decoding: the words written out from R66 and R68 (section 2.1) -/

theorem test_decode_hlt : decode 0b00000000#8 = .instr .hlt ∧ decode 0b00001111#8 = .instr .hlt := by decide
theorem test_decode_lda : decode 0b00010000#8 = .instr (.lda 0x0#4) ∧ decode 0b00011010#8 = .instr (.lda 0xA#4) := by decide
theorem test_decode_add : decode 0b00101011#8 = .instr (.add 0xB#4) ∧ decode 0b00101111#8 = .instr (.add 0xF#4) := by decide
theorem test_decode_sub : decode 0b00110001#8 = .instr (.sub 0x1#4) ∧ decode 0b00111011#8 = .instr (.sub 0xB#4) := by decide
theorem test_decode_out : decode 0b01000000#8 = .instr .out ∧ decode 0b01001111#8 = .instr .out := by decide
theorem test_decode_invalid :
    decode 0x50#8 = .invalid ∧ decode 0x5A#8 = .invalid ∧ decode 0x80#8 = .invalid ∧ decode 0xFF#8 = .invalid := by decide
theorem test_encode_examples :
    [Instr.lda 0xA#4, .add 0xB#4, .sub 0xB#4, .out, .hlt].map encode = [0x1A#8, 0x2B#8, 0x3B#8, 0x40#8, 0x00#8] := by decide
theorem test_decodeTableWord : decodeTableWord 8 0x3E = some (.sub 0xE#4) ∧ decodeTableWord 8 0x60 = none := by decide
theorem test_withFetchWord_runs : after (State.reset.withFetchWord 8 0x10) = some (1#4, 0x10#8, 0x10#8, 0#8, false) := by decide

/-! ### One step -/

/-- Section 2.2. -/
theorem test_hlt_low_nibble_ignored :
    after (st 5#4 0x11#8 0x7E#8 0x33#8 false [(5#4, 0x0C#8)]) = some (6#4, 0x0C#8, 0x7E#8, 0x33#8, true) := by decide
theorem test_hlt_pc_wraps :
    after (st 0xF#4 0#8 0x01#8 0x02#8 false []) = some (0#4, 0#8, 0x01#8, 0x02#8, true) := by decide
/-- W9. -/
theorem test_lda_loads :
    after (st 0#4 0#8 0#8 0#8 false [(0#4, 0x1A#8), (0xA#4, 0xFF#8)]) = some (1#4, 0x1A#8, 0xFF#8, 0#8, false) := by decide
/-- Section 2.3. -/
theorem test_lda_own_byte :
    after (st 2#4 0#8 0#8 0#8 false [(2#4, 0x12#8)]) = some (3#4, 0x12#8, 0x12#8, 0#8, false) := by decide
/-- Section 2.4. -/
theorem test_add_wraps :
    after (st 0#4 0#8 0xFF#8 0#8 false [(0#4, 0x2B#8), (0xB#4, 0xFF#8)]) = some (1#4, 0x2B#8, 0xFE#8, 0#8, false) := by decide
theorem test_add_own_byte :
    after (st 4#4 0#8 0x10#8 0#8 false [(4#4, 0x24#8)]) = some (5#4, 0x24#8, 0x34#8, 0#8, false) := by decide
/-- W7. -/
theorem test_sub_wraps :
    after (st 0#4 0#8 0x0A#8 0#8 false [(0#4, 0x3B#8), (0xB#4, 0x0F#8)]) = some (1#4, 0x3B#8, 0xFB#8, 0#8, false) := by decide
/-- Section 2.5. -/
theorem test_sub_own_byte :
    after (st 6#4 0#8 0#8 0#8 false [(6#4, 0x36#8)]) = some (7#4, 0x36#8, 0xCA#8, 0#8, false) := by decide
/-- Section 2.6. -/
theorem test_out_copies :
    after (st 3#4 0#8 0x9C#8 0#8 false [(3#4, 0x47#8)]) = some (4#4, 0x47#8, 0x9C#8, 0x9C#8, false) := by decide
/-- Section 2.8. -/
theorem test_out_pc_wraps :
    after (st 0xF#4 0#8 0xAA#8 0xBB#8 false [(0xF#4, 0x40#8)]) = some (0#4, 0x40#8, 0xAA#8, 0xAA#8, false) := by decide
/-- Section 2.7. -/
theorem test_invalid_faults :
    faultOf (st 4#4 0x2B#8 0x11#8 0x22#8 false [(4#4, 0x50#8)]) = some (.invalidOpcode 4#4 0x50#8) := by decide
/-- Section 2.7: `halted` is tested first (R107). -/
theorem test_halted_before_invalid :
    after (st 4#4 0x2B#8 0x11#8 0x22#8 true [(4#4, 0xFF#8)]) = some (4#4, 0x2B#8, 0x11#8, 0x22#8, true) := by decide
/-- W13, the first cycle. -/
theorem test_reset_steps_into_hlt : after State.reset = some (1#4, 0#8, 0#8, 0#8, true) := by decide

/-! ### Host, ports and edges (sections 2.9, 2.10) -/

theorem test_host_register_writes :
    (State.reset.writeReg .pc 0x1F).readReg .pc = 0xF ∧ (State.reset.writeReg .acc (-1)).readReg .acc = 0xFF ∧
      (State.reset.writeReg .out 0x100).readReg .out = 0 ∧ (State.reset.writeReg .ir 0x1AB).readReg .ir = 0xAB := by decide
theorem test_host_memory :
    ((hostMemWrite State.reset 5 0x1FF).toOption.map fun s => hostMemRead s 5) = some (.ok 0xFF#8) ∧
      ((hostMemWrite State.reset 5 (-2)).toOption.map fun s => hostMemRead s 0x15) = some (.ok 0xFE#8) ∧
      hostMemWrite State.reset 0x10 1 = .error (.hostWriteOutsideMemory 0x10) ∧
      hostMemRead State.reset (-1) = .error (.hostReadNegativeAddress (-1)) := by decide
theorem test_memory_zero_is_unlisted : (st 0#4 0#8 0#8 0#8 false [(3#4, 7#8), (1#4, 2#8), (3#4, 0#8)]).mem = [(1, 2#8)] := by decide
theorem test_status :
    status (st 0#4 0#8 0#8 0#8 false [(0#4, 0x3A#8)]) = 0b00#2 ∧ opAddr (st 0#4 0#8 0#8 0#8 false [(0#4, 0x3A#8)]) = 0xA#4 ∧
      status (st 0#4 0#8 0#8 0#8 false [(0#4, 0x6A#8)]) = 0b10#2 ∧ status (st 0#4 0#8 0#8 0#8 true []) = 0b01#2 := by decide
theorem test_step_with_host_write_refused :
    refusalAt { EdgeInputs.idle with step := true, hostWe := true } State.reset = some .stepWithHostWrite := by decide
/-- Program P3, the second cycle: the fault is on record and the state unchanged. -/
theorem test_session_records_fault :
    (Session.apply ⟨st 1#4 0x1F#8 0x2A#8 0#8 false [(1#4, 0x5A#8)], none⟩ .cycle).toOption =
      some (⟨st 1#4 0x1F#8 0x2A#8 0#8 false [(1#4, 0x5A#8)], some (.invalidOpcode 1#4 0x5A#8)⟩,
        .outcome (.invalidOpcode 1#4 0x5A#8)) := by decide

/-! ### The assembler (R73 to R75; program P2 and the listings of section 3) -/

theorem test_assemble_text :
    (assembleText "HLT ; stop\n.org 0xD\n.byte 0x01\nSUB 13\nOUT".toList).toOption =
      some [(0xD, 0x01#8), (0xE, 0x3D#8), (0xF, 0x40#8)] := by decide
theorem test_assemble_errors :
    assembleText "LDA 16".toList = .error .numeralOutOfRange ∧ assembleText "JMP 3".toList = .error .badLine ∧
      assembleText ".org 15\nOUT\nOUT".toList = .error .pastLastAddress := by decide
theorem test_disassemble :
    disassemble 0x4F#8 = .out ∧ disassemble 0x0F#8 = .hlt ∧ disassemble 0x1C#8 = .lda 0xC ∧ disassemble 0x5A#8 = .byte 0x5A := by
  decide
theorem test_listing :
    listingLine 0x0#4 0x1E#8 (.lda 0xE) = "0x0: 1E ; LDA 0xE".toList ∧
      listingLine 0xF#4 0x05#8 (.byte 5) = "0xF: 05 ; .byte 0x05".toList := by decide

/-! ### Witnesses: the hypotheses of each statement can be met together -/

/-- A RUNNING state with one byte at `pc`. -/
def at0 (b : Byte) : State := st 0#4 0#8 0x0A#8 0#8 false [(0#4, b)]

theorem witness_DecodeAndEncodeAgree :
    (Instr.sub 0xF#4).wf = true ∧ decode (encode (.sub 0xF#4)) = .instr (.sub 0xF#4) ∧ decode 0x4F#8 = .instr .out ∧
      addrField (encode .out) = 0x0#4 := by decide
theorem witness_HltHaltsTheCore :
    (at0 0x0F#8).halted = false ∧ opcodeField (fetch (at0 0x0F#8)) = 0x0#4 ∧
      ∃ t, exec .hlt (at0 0x0F#8) = .next t ∧ t.halted = true := ⟨by decide, by decide, _, rfl, rfl⟩
theorem witness_LdaLoadsTheCell :
    (at0 0x1F#8).halted = false ∧ opcodeField (fetch (at0 0x1F#8)) = 0x1#4 ∧
      ∃ t, exec (.lda (at0 0x1F#8).pc) (at0 0x1F#8) = .next t := ⟨by decide, by decide, _, rfl⟩
theorem witness_AddAddsModulo256 :
    (at0 0x20#8).halted = false ∧ opcodeField (fetch (at0 0x20#8)) = 0x2#4 := by decide
theorem witness_SubSubtractsModulo256 :
    (at0 0x30#8).halted = false ∧ opcodeField (fetch (at0 0x30#8)) = 0x3#4 := by decide
theorem witness_OutCopiesTheAccumulator :
    (at0 0x4F#8).halted = false ∧ opcodeField (fetch (at0 0x4F#8)) = 0x4#4 ∧
      ∃ t, exec .out (at0 0x4F#8) = .next t := ⟨by decide, by decide, _, rfl⟩
theorem witness_FrameOfLdaAddSub :
    ∀ i ∈ [Instr.lda 0xF#4, .add 0xF#4, .sub 0xF#4],
      (i = .lda 0xF#4 ∨ i = .add 0xF#4 ∨ i = .sub 0xF#4) ∧ ∃ t, exec i (at0 0x1F#8) = .next t := by
  intro i hi
  simp only [List.mem_cons, List.not_mem_nil, or_false] at hi
  refine ⟨hi, ?_⟩
  rcases hi with rfl | rfl | rfl <;> exact ⟨_, rfl⟩
theorem witness_FrameOfOut : ∃ t, exec .out (at0 0x40#8) = .next t ∧ t.out = 0x0A#8 := ⟨_, rfl, by decide⟩
theorem witness_FrameOfHlt : ∃ t, exec .hlt (at0 0x00#8) = .next t := ⟨_, rfl⟩
theorem witness_StepRunsTheDecodedInstruction :
    (at0 0x3F#8).halted = false ∧ decode (fetch (at0 0x3F#8)) = .instr (.sub 0xF#4) ∧
      ∃ t, exec (.sub 0xF#4) (at0 0x3F#8) = .next t := ⟨by decide, by decide, _, rfl⟩
theorem witness_HaltedCycleDoesNothing : (st 4#4 0#8 0#8 0#8 true [(4#4, 0xFF#8)]).halted = true := by decide
/-- Both ends of the range 0x50 to 0xFF, and the two bytes just outside it. -/
theorem witness_InvalidOpcodeChangesNoState :
    (at0 0x50#8).halted = false ∧ 0x50 ≤ (fetch (at0 0x50#8)).toNat ∧ 0x50 ≤ (fetch (at0 0xFF#8)).toNat ∧
      (cycle (at0 0x50#8)).1 = .invalidOpcode 0#4 0x50#8 ∧ (cycle (at0 0x4F#8)).1 = .executed ∧
      (cycle (at0 0x00#8)).1 = .executed := by decide
theorem witness_OnlyInvalidBytesStopAStep :
    faultOf (at0 0x50#8) = some (.invalidOpcode 0#4 0x50#8) ∧ faultOf (at0 0xFF#8) = some (.invalidOpcode 0#4 0xFF#8) ∧
      faultOf (at0 0x4F#8) = none := by decide
theorem witness_InvalidOpcodeIsRecordedAndRepeats :
    (at0 0x50#8).halted = false ∧ decode (fetch (at0 0x50#8)) = .invalid ∧
      ∃ y z : Session, ∃ w v : Answer, Session.apply ⟨at0 0x50#8, none⟩ .cycle = .ok (y, w) ∧ y.fault.isSome = true ∧
        Operation.memWrite 0 0x40 ≠ .reset ∧ y.apply (.memWrite 0 0x40) = .ok (z, v) :=
  ⟨by decide, by decide, _, _, _, _, rfl, by decide, by decide, rfl⟩
theorem witness_DatapathIsTheCycle :
    status (at0 0x50#8) = 0b10#2 ∧ (false && !false && !false) = false ∧ (true && !true && !false) = false ∧
      (true && !false && !true) = false := by decide
theorem witness_HostWriteOfIrHasNoLaterEffect : (at0 0x40#8).halted = false := by decide
theorem witness_ProgramCounterAfterCycles :
    ∃ t, Host.Core.run core 1 (at0 0x40#8) = .next t ∧ t.halted = false :=
  ⟨_, (core_run_of_next rfl 0).trans rfl, rfl⟩
/-- A HALTED state that an executed HLT leaves, and a RUNNING one that steps. -/
theorem witness_StepKeepsMemoryFormAndHaltTrace :
    (st 1#4 0x0C#8 0#8 0#8 true [(0#4, 0x0C#8)]).Inv ∧ (st 1#4 0x0C#8 0#8 0#8 true [(0#4, 0x0C#8)]).HaltTrace ∧
      (at0 0x0C#8).Inv ∧ (at0 0x0C#8).HaltTrace ∧ ∃ t, step (at0 0x0C#8) = .next t ∧ t.halted = true :=
  ⟨rfl, fun _ => by decide, rfl, nofun, _, rfl, rfl⟩
theorem witness_SessionsAndEdgesKeepMemoryForm :
    Session.start.core.Inv ∧ (∃ y, Session.start.run [.memWrite 0xF 0x1FF, .cycle] = .ok y) ∧
      (at0 0x40#8).Inv ∧ ∃ t, clockEdge { EdgeInputs.idle with memWrite := some (0xF, 7) } (at0 0x40#8) = .next t :=
  ⟨rfl, ⟨_, rfl⟩, rfl, _, rfl⟩
theorem witness_HaltedIsSetByHltAndClearedByReset :
    (∃ t, step (at0 0x00#8) = .next t ∧ (at0 0x00#8).halted = false ∧ t.halted = true) ∧
      (∃ t, step (st 0#4 0#8 0#8 0#8 true []) = .next t ∧ (st 0#4 0#8 0#8 0#8 true []).halted = true) ∧
      (∃ y w, Session.apply ⟨st 0#4 0#8 0#8 0#8 true [], none⟩ (.writeReg .pc 3) = .ok (y, w)) ∧
      ∃ y w, Session.apply ⟨st 0#4 0#8 0#8 0#8 true [], none⟩ .reset = .ok (y, w) :=
  ⟨⟨_, rfl, rfl, rfl⟩, ⟨_, rfl, rfl⟩, ⟨_, _, rfl⟩, _, _, rfl⟩
theorem witness_TheCoreNeverWritesMemory :
    (∃ t, exec (.add 3#4) (at0 0x23#8) = .next t) ∧ (∃ t, Host.Core.run core 1 (at0 0x40#8) = .next t) ∧
      ∃ y w, Session.start.apply .cycle = .ok (y, w) ∧ ∀ a v, Operation.cycle ≠ .memWrite a v :=
  ⟨⟨_, rfl⟩, ⟨_, (core_run_of_next rfl 0).trans rfl⟩, _, _, rfl, fun _ _ => nofun⟩
theorem witness_OutputLatchChangesOnlyByOut :
    ∃ t, step (at0 0x40#8) = .next t ∧ (ports t).outQ ≠ (ports (at0 0x40#8)).outQ := ⟨_, rfl, by decide⟩
theorem witness_FinishedRunExecutedHlt : ∃ t, runFor 1 (at0 0x00#8) = .finished t := ⟨_, rfl⟩
/-- The HLT at `pc`, and one that `pc` reaches by wrapping from 0xF to 0x0. -/
theorem witness_FirstHltInSequenceEndsTheRun :
    (at0 0x0F#8).halted = false ∧ decode (memRead (at0 0x0F#8) ((at0 0x0F#8).pc + BitVec.ofNat 4 0)) = .instr .hlt ∧
      (∀ j < 1, ∃ i, decode (memRead (st 0xF#4 0#8 0#8 0#8 false [(0xF#4, 0x40#8)]) (0xF#4 + BitVec.ofNat 4 j)) =
        .instr i ∧ i ≠ .hlt) ∧
      decode (memRead (st 0xF#4 0#8 0#8 0#8 false [(0xF#4, 0x40#8)]) (0xF#4 + BitVec.ofNat 4 1)) = .instr .hlt := by
  refine ⟨rfl, by decide, ?_, by decide⟩
  intro j hj
  obtain rfl : j = 0 := by omega
  exact ⟨.out, by decide, by decide⟩
/-- A RUNNING state where every cell holds ADD 0xF (program P5). -/
def allAdd : State := st 0#4 0#8 0#8 0#8 false (List.ofFn fun a : Fin 16 => (BitVec.ofFin a, 0x2F#8))

/-- A RUNNING state of valid cells with an HLT among them, and one without. -/
theorem witness_RunEndsWithinSixteenCyclesIfSomeCellIsHlt :
    (at0 0x40#8).halted = false ∧ AllCellsDecode (at0 0x40#8).mem ∧
      (∃ a : Addr, decode ((at0 0x40#8).mem.read a) = .instr .hlt) ∧
      allAdd.halted = false ∧ AllCellsDecode allAdd.mem ∧ (∀ a : Addr, decode (allAdd.mem.read a) ≠ .instr .hlt) :=
  ⟨rfl, by unfold AllCellsDecode; decide, ⟨0xF#4, by decide⟩, rfl, by unfold AllCellsDecode; decide, by decide⟩
theorem witness_ResetLoadsTheResetValues :
    ({ EdgeInputs.idle with rst := true, step := true, hostWe := true } : EdgeInputs).memWrite = none ∧
      ∃ y w, Session.apply ⟨at0 0x40#8, none⟩ .reset = .ok (y, w) := ⟨rfl, _, _, rfl⟩
/-- One input for each of the five clauses, and the four values of `host_sel`. -/
theorem witness_EdgeInputsTakeEffectInOrder :
    EdgeInputs.idle.memWrite = none ∧
      (∃ t, clockEdge { EdgeInputs.idle with rst := true, step := true, hostWe := true } (at0 0x40#8) = .next t ∧ t.pc = 0#4) ∧
      refusalAt { EdgeInputs.idle with step := true, hostWe := true } (at0 0x40#8) = some .stepWithHostWrite ∧
      (∃ t, clockEdge { EdgeInputs.idle with step := true } (at0 0x40#8) = .next t ∧ t.pc = 1#4) ∧
      (∀ sel ∈ [0#2, 1#2, 2#2, 3#2], ∃ t,
        clockEdge { EdgeInputs.idle with hostWe := true, hostSel := sel, hostWdata := 0xF3#8 } (at0 0x40#8) = .next t ∧
          t.readReg (regOfSel sel) = if sel = 0#2 then 0x3 else 0xF3) ∧
      clockEdge EdgeInputs.idle (at0 0x40#8) = .next (at0 0x40#8) := by
  refine ⟨rfl, ⟨_, rfl, by decide⟩, by decide, ⟨_, rfl, by decide⟩, ?_, rfl⟩
  intro sel hsel
  simp only [List.mem_cons, List.not_mem_nil, or_false] at hsel
  rcases hsel with rfl | rfl | rfl | rfl <;> exact ⟨_, rfl, by decide⟩
theorem witness_MemoryWriteAtTheEdgeOfACycleIsRefused :
    refusalAt { EdgeInputs.idle with step := true, memWrite := some (0, 1) } (at0 0x40#8) =
        some .memoryWriteWithOtherOperation ∧
      ∃ t, clockEdge { EdgeInputs.idle with memWrite := some (0xF, 1) } (at0 0x40#8) = .next t := ⟨by decide, _, rfl⟩
theorem witness_HostRegisterWriteIsMasked : RegName.acc ≠ RegName.pc := by decide
/-- The least natural address, the first one that wraps, and the negative one next to 0. -/
theorem witness_HostReadsModuloSixteen :
    hostMemRead (at0 0x40#8) 0 = .ok 0x40#8 ∧ hostMemRead (at0 0x40#8) 16 = .ok 0x40#8 ∧ (-1 : Int) < 0 ∧
      ∃ y w, Session.apply ⟨at0 0x40#8, none⟩ (.memRead 15) = .ok (y, w) := ⟨by decide, by decide, by decide, _, _, rfl⟩
/-- The last cell, and both addresses next to the range. -/
theorem witness_HostWriteStoresOneByte :
    (at0 0x40#8).Inv ∧ (∃ t, hostMemWrite (at0 0x40#8) 15 0x1FF = .ok t ∧ memRead t 0xF#4 = 0xFF#8) ∧
      hostMemWrite (at0 0x40#8) 16 1 = .error (.hostWriteOutsideMemory 16) ∧
      hostMemWrite (at0 0x40#8) (-1) 1 = .error (.hostWriteOutsideMemory (-1)) :=
  ⟨rfl, ⟨_, rfl, by decide⟩, by decide, by decide⟩
theorem witness_HostWriteIsSeenByTheNextCycle :
    (at0 0x1F#8).Inv ∧ (∃ t, hostMemWrite (at0 0x1F#8) 0 0x40 = .ok t) ∧ (0xF#4 : Addr) ≠ (at0 0x1F#8).pc ∧
      decode (fetch (at0 0x1F#8)) = .instr (.lda 0xF#4) ∧
      ∃ t u, hostMemWrite (at0 0x1F#8) 15 7 = .ok t ∧ step t = .next u :=
  ⟨rfl, ⟨_, rfl⟩, by decide, by decide, _, _, rfl, rfl⟩
theorem witness_CellHoldsTheLastWrite :
    (∃ y, Session.start.run [.memWrite 3 1, .memWrite 3 0x102, .cycle] = .ok y) ∧
      lastWritten [.memWrite 3 1, .memWrite 3 0x102, .cycle] 3#4 = 0x02#8 := ⟨⟨_, rfl⟩, by decide⟩
theorem witness_UnwrittenCellExecutesAsHlt : State.reset.halted = false ∧ fetch State.reset = 0x00#8 := by decide
theorem witness_NumeralOutOfRangeIsAnAssemblyError :
    (15 < 16 ∧ Statement.lda 16 ∈ [Statement.lda 16, .add 16, .sub 16, .org 16]) ∧ 255 < 256 := by decide
theorem witness_AssembledInstructionsReadBack : (List.replicate 16 (Instr.add 0xF#4)).length ≤ 16 := by decide
theorem witness_StatementTextReadsBack :
    (Statement.byte 255).wf = true ∧ (Statement.org 15).wf = true ∧ (Statement.lda 0).wf = true := by decide

end Sys2Proof.Machine.Tests
end

/-! SUPPORT. What one instruction, one cycle and one host operation can do to the state, said once for the proofs that
follow. -/

namespace Sys2Proof.Machine

/-! ### The answer of each instruction -/

@[simp] theorem exec_hlt (s : State) : exec .hlt s = .next { commitFetch s with halted := true } := rfl

@[simp] theorem exec_lda (a : Addr) (s : State) :
    exec (.lda a) s = .next { commitFetch s with acc := memRead s a } := by
  simpa using exec_cases (.lda a) s

@[simp] theorem exec_add (a : Addr) (s : State) :
    exec (.add a) s = .next { commitFetch s with acc := s.acc + memRead s a } := by
  simpa using exec_cases (.add a) s

@[simp] theorem exec_sub (a : Addr) (s : State) :
    exec (.sub a) s = .next { commitFetch s with acc := s.acc - memRead s a } := by
  simpa using exec_cases (.sub a) s

@[simp] theorem exec_out (s : State) : exec .out s = .next { commitFetch s with out := s.acc } := by
  simpa using exec_cases .out s

/-- Every instruction answers a next state (60_exceptions.md R102). -/
theorem exec_total (i : Instr) (s : State) : ∃ t, exec i s = .next t := by
  cases i <;> exact ⟨_, rfl⟩

/-! ### The frame of an instruction (10_state.md R33, 20_memory.md R51) -/

/-- What executing `i` in `s` leaves in `t`, without the results of LDA, ADD and SUB in `acc`: the fetch commit in `pc`
and `ir`, an untouched memory, `halted` raised by HLT alone, `out` written by OUT alone. -/
structure ExecFrame (i : Instr) (s t : State) : Prop where
  pc : t.pc = s.pc + 1#4
  ir : t.ir = fetch s
  mem : t.mem = s.mem
  halted : t.halted = (s.halted || decide (i = .hlt))
  out : t.out = if i = .out then s.acc else s.out
  acc : i = .hlt ∨ i = .out → t.acc = s.acc

/-- Every instruction meets the frame (41_instructions.md R92 to R96). -/
theorem exec_frame {i : Instr} {s t : State} (h : exec i s = .next t) : ExecFrame i s t := by
  rcases exec_cases i s with ⟨rfl, he⟩ | ⟨a, rfl, he⟩ | ⟨a, rfl, he⟩ | ⟨a, rfl, he⟩ | ⟨rfl, he⟩ <;>
    (obtain rfl := Host.Outcome.next.inj (he.symm.trans h); constructor <;> simp)

/-- Reading depends on nothing but the memory. -/
theorem memRead_congr {s t : State} (h : t.mem = s.mem) (a : Addr) : memRead t a = memRead s a :=
  congrArg (Memory.read · a) h

/-- After an instruction executed in RUNNING the core is HALTED exactly if it was HLT (10_state.md R26). -/
theorem exec_halted_iff {i : Instr} {s t : State} (hs : s.halted = false) (h : exec i s = .next t) :
    t.halted = true ↔ i = .hlt := by
  simp [(exec_frame h).halted, hs]

/-- An instruction executed in RUNNING leaves the mark where it leaves the core HALTED: it was HLT, its byte is in `ir`,
and `pc` is one past the cell it was fetched from. -/
theorem exec_haltTrace {i : Instr} {s t : State} (hs : s.halted = false) (hd : decode (fetch s) = .instr i)
    (h : exec i s = .next t) : t.HaltTrace := by
  intro ht
  obtain rfl := (exec_halted_iff hs h).1 ht
  obtain ⟨hpc, hir, hmem, -, -, -⟩ := exec_frame h
  have hprev : t.pc - 1#4 = s.pc := by
    rw [hpc]
    bv_omega
  refine ⟨hir.symm ▸ hd, ?_⟩
  rw [hir, hprev, memRead_congr hmem, fetch]

/-! ### A step, by what `fetch` decodes to (40_cycle.md R78 to R85) -/

theorem step_of_instr {s : State} {i : Instr} (hs : s.halted = false) (hd : decode (fetch s) = .instr i) :
    step s = exec i s := by
  simp [step, hs, hd]

theorem step_of_invalid {s : State} (hs : s.halted = false) (hd : decode (fetch s) = .invalid) :
    step s = .fault (.invalidOpcode s.pc (fetch s)) := by
  simp [step, hs, hd]

theorem step_keeps_mem {s t : State} (h : step s = .next t) : t.mem = s.mem := by
  rcases step_next h with ⟨-, rfl⟩ | ⟨-, i, -, he⟩
  · rfl
  · exact (exec_frame he).mem

/-! ### A cycle, by what `fetch` decodes to (40_cycle.md R86) -/

theorem cycle_of_halted {s : State} (hs : s.halted = true) : cycle s = (.haltedNoop, s) := by
  simp [cycle, hs]

theorem handlerWrites_of_invalid {f : Byte} (s : State) (hd : decode f = .invalid) : handlerWrites f s = none := by
  unfold decode at hd
  split at hd <;> simp_all [handlerWrites]

/-- The masked sum of R86, as a sum of bytes. -/
theorem ofNat_add_mod (x y : Byte) : BitVec.ofNat 8 ((x.toNat + y.toNat) % 256) = x + y := by
  bv_omega

/-- The masked difference of R86, as a difference of bytes. -/
theorem ofInt_sub_emod (x y : Byte) : BitVec.ofInt 8 (((x.toNat : Int) - y.toNat) % 256) = x - y := by
  apply BitVec.eq_of_toNat_eq
  rw [BitVec.toNat_ofInt, BitVec.toNat_sub]
  omega

/-- On a byte that decodes, the triple of R86 is what the instruction leaves in the registers of a RUNNING core. -/
theorem handlerWrites_of_instr {f : Byte} {i : Instr} {s t : State} (hs : s.halted = false) (hd : decode f = .instr i)
    (h : exec i s = .next t) : handlerWrites f s = some (t.acc, t.out, t.halted) := by
  unfold decode at hd
  split at hd <;> cases hd <;>
    simp only [exec_hlt, exec_lda, exec_add, exec_sub, exec_out, Host.Outcome.next.injEq] at h <;> subst h
  next hop => simp [handlerWrites, hop]
  next hop => simp [handlerWrites, hop, hs, memRead]
  next hop => simp [handlerWrites, hop, hs, memRead, ofNat_add_mod]
  next hop => simp [handlerWrites, hop, hs, memRead, ofInt_sub_emod]
  next hop => simp [handlerWrites, hop, hs]

theorem cycle_of_invalid {s : State} (hs : s.halted = false) (hd : decode (fetch s) = .invalid) :
    cycle s = (.invalidOpcode s.pc (fetch s), s) := by
  have hw : handlerWrites (Memory.read s.mem s.pc) s = none := handlerWrites_of_invalid s hd
  simp [cycle, hs, hw, fetch, memRead]

theorem cycle_of_instr {s t : State} {i : Instr} (hs : s.halted = false) (hd : decode (fetch s) = .instr i)
    (h : exec i s = .next t) : cycle s = (.executed, t) := by
  have hw : handlerWrites (Memory.read s.mem s.pc) s = some (t.acc, t.out, t.halted) :=
    handlerWrites_of_instr hs hd h
  obtain ⟨hpc, hir, hmem, -, -, -⟩ := exec_frame h
  have hpc' : BitVec.ofNat 4 ((s.pc.toNat + 1) % 16) = t.pc := by
    rw [hpc]
    bv_omega
  have hir' : Memory.read s.mem s.pc = t.ir := hir.symm
  simp only [cycle, hs, hw, hpc', Bool.false_eq_true, if_false]
  rw [hir', ← hmem]

/-- What a cycle does to `halted`, by the decoded byte (10_state.md R26). -/
theorem cycle_halted_iff (s : State) :
    (cycle s).2.halted = true ↔ s.halted = true ∨ decode (fetch s) = .instr .hlt := by
  by_cases hs : s.halted = true
  · simp [cycle_of_halted hs, hs]
  · rw [Bool.not_eq_true] at hs
    cases hd : decode (fetch s) with
    | invalid => simp [cycle_of_invalid hs hd, hs]
    | instr i =>
      obtain ⟨t, he⟩ := exec_total i s
      simp [cycle_of_instr hs hd he, exec_halted_iff hs he, hs]

/-! ### A host operation (10_state.md R41) -/

/-- Everything an operation can do to a session. -/
theorem session_apply_cases {x y : Session} {o : Operation} {w : Answer} (h : x.apply o = .ok (y, w)) :
    (o = .cycle ∧ y = ⟨(cycle x.core).2, recordFault x.fault (cycle x.core).1⟩) ∨
    (o = .reset ∧ y = { x with core := x.core.applyReset }) ∨
    (((∃ r, o = .readReg r) ∨ o = .readHalted ∨ ∃ a, o = .memRead a) ∧ y = x) ∨
    (∃ r v, o = .writeReg r v ∧ y = { x with core := x.core.writeReg r v }) ∨
    (∃ a v s, o = .memWrite a v ∧ hostMemWrite x.core a v = .ok s ∧ y = { x with core := s }) := by
  cases o with
  | cycle => cases h; simp
  | reset => cases h; simp
  | readReg r => cases h; simp
  | readHalted => cases h; simp
  | writeReg r v => cases h; simp
  | memRead a =>
    simp only [Session.apply] at h
    split at h <;> cases h
    simp
  | memWrite a v =>
    simp only [Session.apply] at h
    split at h <;> cases h
    simp [*]

/-- A host operation that is no cycle and no reset leaves `halted` (10_state.md R39, R40). -/
theorem session_apply_keeps_halted {x y : Session} {o : Operation} {w : Answer} (h : x.apply o = .ok (y, w))
    (hc : o ≠ .cycle) (hr : o ≠ .reset) : y.core.halted = x.core.halted := by
  rcases session_apply_cases h with ⟨ho, -⟩ | ⟨ho, -⟩ | ⟨-, rfl⟩ | ⟨r, v, -, rfl⟩ | ⟨a, v, s, -, hm, rfl⟩
  · exact absurd ho hc
  · exact absurd ho hr
  · rfl
  · exact State.writeReg_halted _ r v
  · obtain ⟨-, rfl⟩ := hostMemWrite_ok hm
    rfl

/-- A reset by the host is a reset of the core (10_state.md R36). -/
theorem session_apply_reset {x y : Session} {w : Answer} (h : x.apply .reset = .ok (y, w)) :
    y.core = x.core.applyReset := by
  cases h
  rfl

/-! ### A clock edge without a host memory write (10_state.md R44) -/

theorem clockEdge_of_memWrite_none {i : EdgeInputs} (h : i.memWrite = none) (s : State) :
    clockEdge i s = coreEdge i s := by
  simp [clockEdge, h]

theorem coreEdge_of_rst {i : EdgeInputs} (h : i.rst = true) (s : State) : coreEdge i s = .next s.applyReset := by
  simp [coreEdge, h]

theorem regOfSel_eq (sel : BitVec 2) :
    regOfSel sel = if sel = 0#2 then .pc else if sel = 1#2 then .ir else if sel = 2#2 then .acc else .out := by
  revert sel
  decide

/-- Only the low four bits of `host_wdata` reach `pc` (R42). -/
theorem maskAddr_of_byte (b : Byte) : maskAddr (b.toNat : Int) = b.extractLsb' 0 4 := by
  apply BitVec.eq_of_toNat_eq
  rw [maskAddr_toNat, BitVec.extractLsb'_toNat]
  omega

/-- A host register write at an edge stores `host_wdata` in the register that `host_sel` names (R42). -/
theorem writeReg_regOfSel (s : State) (sel : BitVec 2) (b : Byte) :
    s.writeReg (regOfSel sel) b.toNat =
      if sel = 0#2 then { s with pc := b.extractLsb' 0 4 }
      else if sel = 1#2 then { s with ir := b }
      else if sel = 2#2 then { s with acc := b }
      else { s with out := b } := by
  rw [regOfSel_eq]
  split_ifs <;> simp [State.writeReg, State.writePc, State.writeIr, State.writeAcc, State.writeOut, maskAddr_of_byte]

/-! ### Host register access (10_state.md R27, R37, R38) -/

theorem readReg_writeReg_same (s : State) (r : RegName) (v : Int) :
    ((s.writeReg r v).readReg r : Int) = v % (if r = .pc then 16 else 256) := by
  cases r <;> simp [State.writeReg, State.readReg, maskAddr_toNat, maskByte_toNat] <;> omega

theorem readReg_writeReg_other (s : State) {r q : RegName} (v : Int) (h : q ≠ r) :
    (s.writeReg r v).readReg q = s.readReg q := by
  cases r <;> cases q <;> simp [State.writeReg, State.readReg] at h ⊢

/-! ### A register that a cycle does not read (10_state.md R33, R39) -/

theorem exec_writeIr (i : Instr) (s : State) (v : Int) : exec i (s.writeIr v) = exec i s := by
  cases i <;> rfl

theorem step_writeIr {s : State} (hs : s.halted = false) (v : Int) : step (s.writeIr v) = step s := by
  have hw : (s.writeIr v).halted = false := hs
  cases hd : decode (fetch s) with
  | instr i => rw [step_of_instr hs hd, step_of_instr (i := i) hw hd, exec_writeIr]
  | invalid => rw [step_of_invalid hs hd, step_of_invalid hw hd]; rfl

end Sys2Proof.Machine

/-! SUPPORT. The statements about the state: frames, `halted`, `ir`, `out`, reset and the host's register access. -/

namespace Sys2Proof.Machine

/-! ### Frames -/

/-- Settles O10: LDA, ADD and SUB are neither HLT nor OUT, so their frame leaves `out` and `halted`. -/
theorem frameOfLdaAddSub : Obligations.FrameOfLdaAddSub := by
  intro a i s t hi h
  obtain ⟨hpc, hir, hmem, hhalted, hout, -⟩ := exec_frame h
  have hne : i ≠ .hlt ∧ i ≠ .out := by
    rcases hi with rfl | rfl | rfl <;> simp
  exact ⟨by simpa [hne.2] using hout, by simpa [hne.1] using hhalted, hir, hpc, memRead_congr hmem⟩

/-- Settles O11, by the frame of an instruction. -/
theorem frameOfOut : Obligations.FrameOfOut := by
  intro s t h
  obtain ⟨hpc, hir, hmem, hhalted, -, hacc⟩ := exec_frame h
  exact ⟨hacc (.inr rfl), by simpa using hhalted, hir, hpc, memRead_congr hmem⟩

/-- Settles O12, by the frame of an instruction. -/
theorem frameOfHlt : Obligations.FrameOfHlt := by
  intro s t h
  obtain ⟨hpc, hir, hmem, -, hout, hacc⟩ := exec_frame h
  exact ⟨hacc (.inl rfl), by simpa using hout, hir, hpc, memRead_congr hmem⟩

/-! ### The memory's canonical form and the mark of an executed HLT -/

/-- Settles O22: no step writes memory, a HALTED step changes nothing, and an executed HLT leaves its mark. -/
theorem stepKeepsMemoryFormAndHaltTrace : Obligations.StepKeepsMemoryFormAndHaltTrace := by
  intro s t hinv htrace h
  refine ⟨?_, ?_⟩
  · rw [State.Inv, step_keeps_mem h]
    exact hinv
  · rcases step_next h with ⟨-, rfl⟩ | ⟨hs, i, hd, he⟩
    · exact htrace
    · exact exec_haltTrace hs hd he

/-- Settles O23: the memory at reset is newly built, and the core is RUNNING. -/
theorem resetHasMemoryFormAndHaltTrace : Obligations.ResetHasMemoryFormAndHaltTrace :=
  ⟨State.reset_mem_wf, fun h => absurd h Bool.false_ne_true⟩

/-! ### `halted` and the output latch -/

/-- Settles O25: the steps by the frame of an instruction, the cycle by the decoded byte, the host by its operations. -/
theorem haltedIsSetByHltAndClearedByReset : Obligations.HaltedIsSetByHltAndClearedByReset := by
  refine ⟨rfl, ?_, ?_, cycle_halted_iff, fun _ _ _ _ => session_apply_keeps_halted, ?_⟩
  · intro s t h hs ht
    rcases step_next h with ⟨hs', -⟩ | ⟨-, i, hd, he⟩
    · simp [hs] at hs'
    · rwa [(exec_halted_iff hs he).1 ht] at hd
  · intro s t h hs
    rcases step_next h with ⟨-, rfl⟩ | ⟨hs', -⟩
    · exact hs
    · simp [hs] at hs'
  · intro x y w h
    rw [session_apply_reset h, State.applyReset_halted]

/-- Settles O27: a HALTED step changes nothing, and of the instructions only OUT writes `out`. -/
theorem outputLatchChangesOnlyByOut : Obligations.OutputLatchChangesOnlyByOut := by
  intro s t h hne
  change t.out ≠ s.out at hne
  rcases step_next h with ⟨-, rfl⟩ | ⟨-, i, hd, he⟩
  · exact absurd rfl hne
  · have hout := (exec_frame he).out
    by_cases hi : i = .out
    · exact ⟨hi ▸ hd, hout.trans (if_pos hi)⟩
    · exact absurd (hout.trans (if_neg hi)) hne

/-! ### The host and the clock edge -/

/-- Settles O20: the fetch commit overwrites `ir`, and no instruction reads it. -/
theorem hostWriteOfIrHasNoLaterEffect : Obligations.HostWriteOfIrHasNoLaterEffect :=
  ⟨fun _ v hs => step_writeIr hs v, fun _ _ => rfl, State.writeReg_halted⟩

/-- Settles O31: `rst` stands first in the order of the inputs, and a reset keeps the memory. -/
theorem resetLoadsTheResetValues : Obligations.ResetLoadsTheResetValues := by
  refine ⟨⟨rfl, rfl, rfl, rfl, rfl⟩, ?_, fun x y w h => session_apply_reset h⟩
  intro i s hrst hmw
  rw [clockEdge_of_memWrite_none hmw, coreEdge_of_rst hrst]
  rfl

/-- Settles O32, one clause per line of R44. -/
theorem edgeInputsTakeEffectInOrder : Obligations.EdgeInputsTakeEffectInOrder := by
  intro i s hmw
  rw [clockEdge_of_memWrite_none hmw]
  refine ⟨fun hrst => coreEdge_of_rst hrst s, ?_, ?_, ?_, ?_⟩
  · intro hrst hstep hwe
    simp [coreEdge, hrst, hstep, hwe]
  · intro hrst hstep hwe
    simp [coreEdge, hrst, hstep, hwe]
  · intro hrst hstep hwe
    simp [coreEdge, hrst, hstep, hwe, writeReg_regOfSel]
  · intro hrst hstep hwe
    simp [coreEdge, hrst, hstep, hwe]

/-- Settles O34, by what a read returns after a write to the same and to another register. -/
theorem hostRegisterWriteIsMasked : Obligations.HostRegisterWriteIsMasked := fun s r _ v =>
  ⟨readReg_writeReg_same s r v, readReg_writeReg_other s v, State.writeReg_halted s r v, State.writeReg_mem s r v⟩

/-- Settles O35: a read answers the stored field and hands the session back. -/
theorem hostRegisterReadChangesNothing : Obligations.HostRegisterReadChangesNothing :=
  ⟨fun _ _ => rfl, fun _ => rfl, fun _ => ⟨rfl, rfl, rfl, rfl⟩⟩

end Sys2Proof.Machine

/-! SUPPORT. What a run, an operation of the host and a clock edge can do to memory, said once for the statements about
memory. -/

namespace Sys2Proof.Machine

/-! ### The core never writes memory (20_memory.md R51) -/

theorem cycle_keeps_mem (s : State) : (cycle s).2.mem = s.mem := by
  by_cases hs : s.halted = true
  · rw [cycle_of_halted hs]
  · rw [Bool.not_eq_true] at hs
    cases hd : decode (fetch s) with
    | invalid => rw [cycle_of_invalid hs hd]
    | instr i =>
      obtain ⟨t, he⟩ := exec_total i s
      rw [cycle_of_instr hs hd he]
      exact (exec_frame he).mem

theorem cycles_keeps_mem (n : Nat) (s : State) : (cycles n s).mem = s.mem := by
  induction n generalizing s with
  | zero => rfl
  | succ n ih => exact (ih (cycle s).2).trans (cycle_keeps_mem s)

theorem core_run_keeps_mem {n : Nat} {s t : State} (h : Host.Core.run core n s = .next t) : t.mem = s.mem := by
  induction n generalizing s with
  | zero =>
    cases h
    rfl
  | succ n ih =>
    obtain ⟨u, hu, hrun⟩ := core_run_next h
    exact (ih hrun).trans (step_keeps_mem hu)

/-! ### The byte of an unwritten cell (20_memory.md R59) -/

/-- The fetch commit writes `ir` and `pc` and nothing else (40_cycle.md R83, R84). -/
theorem commitFetch_eq (s : State) : commitFetch s = { s with pc := s.pc + 1#4, ir := fetch s } := by
  simp [commitFetch, State.writePc, State.writeIr]

/-- A RUNNING core that fetches 0x00 executes HLT. -/
theorem step_of_fetch_zero {s : State} (hs : s.halted = false) (hf : fetch s = 0x00#8) :
    step s = .next { s with pc := s.pc + 1#4, ir := 0x00#8, halted := true } := by
  have hd : decode (fetch s) = .instr .hlt := by
    rw [hf]
    decide
  rw [step_of_instr hs hd, exec_hlt, commitFetch_eq, hf]

/-! ### The host's memory access (20_memory.md R52 to R55) -/

/-- Reducing a natural address modulo 16 is masking it (R52). -/
theorem maskAddr_of_nat (n : Nat) : maskAddr (n : Int) = BitVec.ofNat 4 (n % 16) := by
  apply BitVec.eq_of_toNat_eq
  rw [maskAddr_toNat, BitVec.toNat_ofNat]
  omega

theorem hostMemRead_of_nat (s : State) (n : Nat) : hostMemRead s n = .ok (memRead s (BitVec.ofNat 4 (n % 16))) := by
  have hn : ¬ (n : Int) < 0 := by omega
  simp [hostMemRead, hn, maskAddr_of_nat, memRead]

/-- A host write to a cell succeeds (R54). -/
theorem hostMemWrite_of_addr (s : State) (a : Addr) (v : Int) :
    hostMemWrite s a.toNat v = .ok { s with mem := s.mem.write a (maskByte v) } := by
  have ha : (0 : Int) ≤ a.toNat ∧ (a.toNat : Int) < Config.memCapacity := by
    have hlt : a.toNat < Config.memCapacity := a.isLt
    omega
  rw [hostMemWrite, if_pos ha, maskAddr_of_addr]

theorem hostMemWrite_of_outside (s : State) {a : Int} (v : Int) (ha : a < 0 ∨ 15 < a) :
    hostMemWrite s a v = .error (.hostWriteOutsideMemory a) := by
  have hout : ¬ (0 ≤ a ∧ a < Config.memCapacity) := by
    simp only [Config.memCapacity]
    omega
  rw [hostMemWrite, if_neg hout]

/-- A host write that succeeds sets its own cell and no other (R54). -/
theorem memRead_of_hostMemWrite {s t : State} {a v : Int} (hs : s.Inv) (h : hostMemWrite s a v = .ok t) (b : Addr) :
    memRead t b = if maskAddr a = b then maskByte v else memRead s b := by
  obtain ⟨-, rfl⟩ := hostMemWrite_ok h
  split_ifs with hab
  · subst hab
    exact Memory.read_write_same hs _ _
  · exact Memory.read_write_other s.mem (Ne.symm hab) _

theorem hostMemWrite_keeps_pc {s t : State} {a v : Int} (h : hostMemWrite s a v = .ok t) : t.pc = s.pc := by
  obtain ⟨-, rfl⟩ := hostMemWrite_ok h
  rfl

theorem hostMemWrite_keeps_halted {s t : State} {a v : Int} (h : hostMemWrite s a v = .ok t) :
    t.halted = s.halted := by
  obtain ⟨-, rfl⟩ := hostMemWrite_ok h
  rfl

/-- What the next cycle fetches after a host write: the value written if that was the cell at `pc` (R63). -/
theorem fetch_of_hostMemWrite {s t : State} {a v : Int} (hs : s.Inv) (h : hostMemWrite s a v = .ok t) :
    fetch t = if maskAddr a = s.pc then maskByte v else fetch s := by
  rw [fetch, hostMemWrite_keeps_pc h, memRead_of_hostMemWrite hs h, fetch]

/-! ### A session (10_state.md R41) -/

/-- Of the host's operations every one but a memory write leaves memory (R51). -/
theorem session_apply_keeps_mem {x y : Session} {o : Operation} {w : Answer} (h : x.apply o = .ok (y, w))
    (ho : ∀ a v, o ≠ .memWrite a v) : y.core.mem = x.core.mem := by
  rcases session_apply_cases h with ⟨-, rfl⟩ | ⟨-, rfl⟩ | ⟨-, rfl⟩ | ⟨r, v, -, rfl⟩ | ⟨a, v, s, rfl, -, -⟩
  · exact cycle_keeps_mem x.core
  · exact State.applyReset_mem x.core
  · rfl
  · exact State.writeReg_mem x.core r v
  · exact absurd rfl (ho a v)

theorem session_apply_memWrite {x y : Session} {a v : Int} {w : Answer} (h : x.apply (.memWrite a v) = .ok (y, w)) :
    hostMemWrite x.core a v = .ok y.core := by
  simp only [Session.apply] at h
  split at h <;> cases h
  assumption

/-- An operation keeps the canonical form and does to each cell what `cellAfter` says. -/
theorem session_apply_inv_and_cells {x y : Session} {o : Operation} {w : Answer} (hx : x.core.Inv)
    (h : x.apply o = .ok (y, w)) : y.core.Inv ∧ ∀ a, memRead y.core a = cellAfter a (memRead x.core a) o := by
  by_cases ho : ∃ a v, o = .memWrite a v
  · obtain ⟨a, v, rfl⟩ := ho
    have hw := session_apply_memWrite h
    exact ⟨hostMemWrite_keeps_wf hx hw, memRead_of_hostMemWrite hx hw⟩
  · have hne : ∀ a v, o ≠ .memWrite a v := fun a v he => ho ⟨a, v, he⟩
    have hmem := session_apply_keeps_mem h hne
    refine ⟨by rwa [State.Inv, hmem], fun a => (memRead_congr hmem a).trans ?_⟩
    cases o with
    | memWrite b v => exact absurd rfl (hne b v)
    | _ => rfl

/-- A run that is not refused is an operation that is not, and then a run. -/
theorem session_run_cons {x z : Session} {o : Operation} {os : List Operation} (h : x.run (o :: os) = .ok z) :
    ∃ y w, x.apply o = .ok (y, w) ∧ y.run os = .ok z := by
  simp only [Session.run] at h
  split at h
  · exact ⟨_, _, ‹_›, h⟩
  · cases h

/-- A run keeps the canonical form and does to each cell what its operations do one after another (20_memory.md R61). -/
theorem session_run_inv_and_cells {os : List Operation} {x z : Session} (hx : x.core.Inv) (h : x.run os = .ok z) :
    z.core.Inv ∧ ∀ a, memRead z.core a = os.foldl (cellAfter a) (memRead x.core a) := by
  induction os generalizing x with
  | nil =>
    cases h
    exact ⟨hx, fun _ => rfl⟩
  | cons o os ih =>
    obtain ⟨y, w, hy, hz⟩ := session_run_cons h
    obtain ⟨hinv, hcell⟩ := session_apply_inv_and_cells hx hy
    obtain ⟨hzinv, hzcell⟩ := ih hinv hz
    exact ⟨hzinv, fun a => by rw [hzcell, hcell, List.foldl_cons]⟩

/-! ### A clock edge (10_state.md R44, 70_reset_and_hazards.md R122) -/

/-- The core's own inputs never write memory. -/
theorem coreEdge_keeps_mem {i : EdgeInputs} {s t : State} (h : coreEdge i s = .next t) : t.mem = s.mem := by
  unfold coreEdge at h
  split_ifs at h
  · cases h
    exact State.applyReset_mem s
  · exact step_keeps_mem h
  · cases h
    exact State.writeReg_mem s _ _
  · cases h
    rfl

/-- An edge that answers a next state is one of the core's own inputs, or a host memory write alone. -/
theorem clockEdge_next {i : EdgeInputs} {s t : State} (h : clockEdge i s = .next t) :
    coreEdge i s = .next t ∨ ∃ a v, i.memWrite = some (a, v) ∧ hostMemWrite s a v = .ok t := by
  unfold clockEdge at h
  split at h
  · exact .inl h
  next a v hmw =>
    split_ifs at h
    split at h <;> cases h
    exact .inr ⟨a, v, hmw, ‹_›⟩

theorem clockEdge_keeps_inv {i : EdgeInputs} {s t : State} (hs : s.Inv) (h : clockEdge i s = .next t) : t.Inv := by
  rcases clockEdge_next h with hcore | ⟨a, v, -, hw⟩
  · rwa [State.Inv, coreEdge_keeps_mem hcore]
  · exact hostMemWrite_keeps_wf hs hw

end Sys2Proof.Machine

/-! SUPPORT. The statements about memory: its canonical form, who writes it, the host's access, and the last write. -/

namespace Sys2Proof.Machine

/-- Settles O24: a session by induction over its operations, an edge by the two ways it can answer. -/
theorem sessionsAndEdgesKeepMemoryForm : Obligations.SessionsAndEdgesKeepMemoryForm :=
  ⟨fun _ _ _ hx h => (session_run_inv_and_cells hx h).1, fun _ _ _ hs h => clockEdge_keeps_inv hs h⟩

/-- Settles O26: an instruction by its frame, runs and cycles by induction, the host by its operations. -/
theorem theCoreNeverWritesMemory : Obligations.TheCoreNeverWritesMemory :=
  ⟨fun _ _ _ h => (exec_frame h).mem, fun _ _ _ h => core_run_keeps_mem h, cycles_keeps_mem,
    fun _ _ _ _ h ho => session_apply_keeps_mem h ho⟩

/-- Settles O36: a natural address is masked, a negative one refused, and a read hands the session back. -/
theorem hostReadsModuloSixteen : Obligations.HostReadsModuloSixteen := by
  refine ⟨hostMemRead_of_nat, fun s a ha => if_pos ha, ?_⟩
  intro x y a w h
  simpa using session_apply_cases h

/-- Settles O37, by what each cell reads after a host write. -/
theorem hostWriteStoresOneByte : Obligations.HostWriteStoresOneByte := by
  refine ⟨?_, fun s a v ha => hostMemWrite_of_outside s v ha⟩
  intro s a v hs
  have hw := hostMemWrite_of_addr s a v
  have hcell := memRead_of_hostMemWrite hs hw
  simp only [maskAddr_of_addr] at hcell
  refine ⟨_, hw, ?_, ?_, rfl⟩
  · rw [hcell, if_pos rfl, maskByte_toNat]
    omega
  · intro b hb
    rw [hcell, if_neg hb.symm]

/-- Settles O38: the fetch reads the cell written; an LDA elsewhere is still fetched and reads it as its operand. -/
theorem hostWriteIsSeenByTheNextCycle : Obligations.HostWriteIsSeenByTheNextCycle := by
  intro s v hs
  refine ⟨?_, ?_⟩
  · intro t hw
    rw [fetch_of_hostMemWrite hs hw, maskAddr_of_addr, if_pos rfl]
  · intro a t u ha hrun hd hw hstep
    have hfetch : fetch t = fetch s := by
      rw [fetch_of_hostMemWrite hs hw, maskAddr_of_addr, if_neg ha]
    have hcell : memRead t a = maskByte v := by
      rw [memRead_of_hostMemWrite hs hw, maskAddr_of_addr, if_pos rfl]
    have hrun' : t.halted = false := (hostMemWrite_keeps_halted hw).trans hrun
    rw [step_of_instr hrun' (hfetch ▸ hd), exec_lda] at hstep
    cases hstep
    exact hcell

/-- Settles O39: from reset, where every cell reads 0, along the operations of the session. -/
theorem cellHoldsTheLastWrite : Obligations.CellHoldsTheLastWrite := fun _ _ h =>
  (session_run_inv_and_cells (x := .start) State.reset_mem_wf h).2

/-- Settles O41: 0x00 is the byte of HLT, and a newly built memory holds it in every cell. -/
theorem unwrittenCellExecutesAsHlt : Obligations.UnwrittenCellExecutesAsHlt :=
  ⟨fun _ hs hf => step_of_fetch_zero hs hf, fun _ => rfl, rfl, step_of_fetch_zero rfl rfl⟩

end Sys2Proof.Machine

/-! SUPPORT. The two fields of a byte, and the decoder as the inverse of the encoder (30_encoding.md R66 to R75). -/

namespace Sys2Proof

/-! ### The fields of a byte (R66) -/

theorem append_toNat (o : Nibble) (a : Addr) : (o ++ a : Byte).toNat = 16 * o.toNat + a.toNat := by
  rw [BitVec.toNat_append, ← Nat.shiftLeft_add_eq_or_of_lt a.isLt, Nat.shiftLeft_eq]
  omega

theorem opcodeField_toNat (b : Byte) : (opcodeField b).toNat = b.toNat / 16 := by
  rw [opcodeField, BitVec.extractLsb'_toNat, Nat.shiftRight_eq_div_pow]
  have := b.isLt
  omega

theorem addrField_toNat (b : Byte) : (addrField b).toNat = b.toNat % 16 := by
  rw [addrField, BitVec.extractLsb'_toNat, Nat.shiftRight_zero]

@[simp] theorem opcodeField_append (o : Nibble) (a : Addr) : opcodeField (o ++ a) = o := by
  apply BitVec.eq_of_toNat_eq
  rw [opcodeField_toNat, append_toNat]
  omega

@[simp] theorem addrField_append (o : Nibble) (a : Addr) : addrField (o ++ a) = a := by
  apply BitVec.eq_of_toNat_eq
  rw [addrField_toNat, append_toNat]
  omega

/-- A byte is its opcode followed by its operand. -/
theorem opcodeField_append_addrField (b : Byte) : opcodeField b ++ addrField b = b := by
  apply BitVec.eq_of_toNat_eq
  rw [append_toNat, opcodeField_toNat, addrField_toNat]
  omega

/-! ### The decoder, by opcode (R68 to R71) -/

@[simp] theorem decode_opcode_zero (a : Addr) : decode (0x0#4 ++ a) = .instr .hlt := by
  simp [decode_of_opcode]

@[simp] theorem decode_opcode_one (a : Addr) : decode (0x1#4 ++ a) = .instr (.lda a) := by
  simp [decode_of_opcode]

@[simp] theorem decode_opcode_two (a : Addr) : decode (0x2#4 ++ a) = .instr (.add a) := by
  simp [decode_of_opcode]

@[simp] theorem decode_opcode_three (a : Addr) : decode (0x3#4 ++ a) = .instr (.sub a) := by
  simp [decode_of_opcode]

@[simp] theorem decode_opcode_four (a : Addr) : decode (0x4#4 ++ a) = .instr .out := by
  simp [decode_of_opcode]

/-- The invalid bytes are those of opcode 5 to 15 (R70). -/
theorem decode_eq_invalid_iff (b : Byte) : decode b = .invalid ↔ 0x50 ≤ b.toNat := by
  have hop : 0x50 ≤ b.toNat ↔ 5 ≤ (opcodeField b).toNat := by
    rw [opcodeField_toNat]
    omega
  rw [hop, decode]
  rcases (opcodeField b).toNat with _ | _ | _ | _ | _ | n <;> simp

/-- As many numbers below `n` satisfy `p` as lie below `k`, when those are the ones that do. -/
theorem count_of_iff_lt {p : Nat → Prop} [DecidablePred p] {k n : Nat} (hkn : k ≤ n) (h : ∀ m < n, p m ↔ m < k) :
    Nat.count p n = k := by
  obtain ⟨d, rfl⟩ := Nat.exists_eq_add_of_le hkn
  have hbelow : Nat.count p k = k := Nat.count_of_forall fun m hm => (h m (by omega)).2 hm
  have habove : Nat.count (fun m => p (k + m)) d = 0 :=
    Nat.count_of_forall_not fun m hm hp => absurd ((h (k + m) (by omega)).1 hp) (by omega)
  rw [Nat.count_add, hbelow, habove, Nat.add_zero]

/-- Below 0x50 lie the 80 bytes that decode to an instruction (R71). -/
theorem count_decode_instr : Nat.count (fun n => decode (BitVec.ofNat 8 n) ≠ .invalid) 256 = 80 := by
  apply count_of_iff_lt (by decide)
  intro n hn
  rw [Ne, decode_eq_invalid_iff, BitVec.toNat_ofNat, Nat.mod_eq_of_lt hn, Nat.not_le]

/-! ### The canonical byte (R75) -/

/-- The canonical byte is an opcode followed by the operand, or by a zero nibble. -/
theorem or_setWidth_eq_append (o : Nibble) (a : Addr) : (o ++ 0x0#4 : Byte) ||| a.setWidth 8 = o ++ a := by
  apply BitVec.eq_of_toNat_eq
  rw [BitVec.toNat_or, BitVec.toNat_append, BitVec.toNat_append, BitVec.toNat_setWidth_of_le (by decide)]
  simp

theorem encode_lda (a : Addr) : encode (.lda a) = 0x1#4 ++ a := or_setWidth_eq_append 0x1#4 a

theorem encode_add (a : Addr) : encode (.add a) = 0x2#4 ++ a := or_setWidth_eq_append 0x2#4 a

theorem encode_sub (a : Addr) : encode (.sub a) = 0x3#4 ++ a := or_setWidth_eq_append 0x3#4 a

@[simp] theorem decode_encode (i : Instr) : decode (encode i) = .instr i := by
  cases i with
  | hlt => exact decode_opcode_zero 0x0#4
  | lda a => rw [encode_lda, decode_opcode_one]
  | add a => rw [encode_add, decode_opcode_two]
  | sub a => rw [encode_sub, decode_opcode_three]
  | out => exact decode_opcode_four 0x0#4

theorem decodeAll_map_encode (is : List Instr) : decodeAll (is.map encode) = some is := by
  induction is with
  | nil => rfl
  | cons i is ih => simp [decodeAll, ih]

/-- What a byte that decodes to an instruction is made of: its opcode, and where it has one its operand. -/
theorem decode_eq_instr {b : Byte} {i : Instr} (h : decode b = .instr i) :
    opcodeField b = opcodeField (encode i) ∧ (b = encode i ∨ i = .hlt ∨ i = .out) := by
  rw [← opcodeField_append_addrField b]
  rw [decode_of_opcode] at h
  split_ifs at h with h0 h1 h2 h3 h4 <;> cases h
  · rw [h0]; exact ⟨opcodeField_append _ _, .inr (.inl rfl)⟩
  · simp [h1, encode_lda]
  · simp [h2, encode_add]
  · simp [h3, encode_sub]
  · rw [h4]; exact ⟨opcodeField_append _ _, .inr (.inr rfl)⟩

end Sys2Proof

/-! SUPPORT. The assembler's two halves (30_encoding.md R73 to R75): what a list of instructions places in memory, and how
a line of text is read. -/

namespace Sys2Proof.Machine

/-! ### Statements and their bytes -/

theorem disassemble_of_instr {b : Byte} {i : Instr} (h : decode b = .instr i) : disassemble b = .ofInstr i := by
  simp [disassemble, h]

@[simp] theorem Statement.ofInstr_byte? (i : Instr) : (Statement.ofInstr i).byte? = some (encode i) := by
  cases i <;> simp [Statement.ofInstr, Statement.byte?]

@[simp] theorem Statement.ofInstr_wf (i : Instr) : (Statement.ofInstr i).wf = true := by
  cases i with
  | hlt | out => rfl
  | lda a | add a | sub a => exact (addrNumeralWf_iff _).2 a.isLt

/-! ### Assembling (R74) -/

theorem assembleFrom_of_not_wf {st : Statement} (h : ¬ st.wf = true) (cur : Nat) (m : Memory) (rest : List Statement) :
    assembleFrom cur m (st :: rest) = .error .numeralOutOfRange := by
  simp [assembleFrom, h]

/-- An instruction's statement places its byte at the current address and advances it. -/
theorem assembleFrom_ofInstr {cur : Nat} (h : cur < Config.memCapacity) (m : Memory) (i : Instr)
    (rest : List Statement) :
    assembleFrom cur m (Statement.ofInstr i :: rest) = assembleFrom (cur + 1) (m.store cur (encode i)) rest := by
  simp [assembleFrom, h]

/-- From address `cur` on, instructions that fit place their bytes in sequence and leave every other cell. -/
theorem assembleFrom_map_ofInstr {cur : Nat} {m : Memory} {is : List Instr} (hm : m.wf = true)
    (hfit : cur + is.length ≤ Config.memCapacity) :
    ∃ t, assembleFrom cur m (is.map Statement.ofInstr) = .ok t ∧ t.wf = true ∧
      ∀ a : Addr, t.read a = if a.toNat < cur then m.read a else (is[a.toNat - cur]?).elim (m.read a) encode := by
  induction is generalizing cur m with
  | nil => exact ⟨m, rfl, hm, fun a => by simp⟩
  | cons i is ih =>
    rw [List.length_cons] at hfit
    have hcur : cur < Config.memCapacity := by omega
    have hstore : (m.store cur (encode i)).wf = true := Memory.wfFrom_store (encode i) hm (Nat.zero_le cur) hcur
    obtain ⟨t, ht, htwf, hread⟩ := ih (cur := cur + 1) hstore (by omega)
    refine ⟨t, (assembleFrom_ofInstr hcur m i _).trans ht, htwf, fun a => ?_⟩
    rw [hread]
    rcases lt_trichotomy a.toNat cur with hlt | heq | hgt
    · rw [if_pos (by omega), if_pos hlt]
      exact Memory.lookup_store_other _ m hlt.ne
    · subst heq
      have hsame : (m.store a.toNat (encode i)).read a = encode i := Memory.lookup_store_same (encode i) hm
      simp [hsame]
    · have hsub : a.toNat - cur = a.toNat - (cur + 1) + 1 := by omega
      have hother : (m.store cur (encode i)).read a = m.read a := Memory.lookup_store_other _ m hgt.ne'
      rw [if_neg (by omega), if_neg (by omega), hsub, List.getElem?_cons_succ, hother]

/-! ### Numerals in hex (log entry 8) -/

theorem digitValue_hexDigit (v : Nibble) : digitValue (hexDigit v) = some v.toNat := by
  revert v
  decide

theorem digitsValue_hexDigit (acc : Nat) (v : Nibble) (ds : List Char) :
    digitsValue 16 acc (hexDigit v :: ds) = digitsValue 16 (acc * 16 + v.toNat) ds := by
  simp [digitsValue, digitValue_hexDigit, v.isLt]

theorem numeral_hex (c : Char) (cs : List Char) : numeral ('0' :: 'x' :: c :: cs) = digitsValue 16 0 (c :: cs) := rfl

theorem numeral_hexAddr (a : Addr) : numeral (hexAddr a) = some a.toNat := by
  rw [hexAddr, numeral_hex, digitsValue_hexDigit]
  simp [digitsValue]

theorem numeral_hexByte (b : Byte) : numeral ('0' :: 'x' :: hexByte b) = some b.toNat := by
  rw [hexByte, numeral_hex, digitsValue_hexDigit, digitsValue_hexDigit, opcodeField_toNat, addrField_toNat]
  simp [digitsValue]
  omega

/-! ### The words of a line (R73; log entry 8) -/

/-- The characters between words. -/
def isBlank (c : Char) : Bool := c == ' ' || c == '\t' || c == '\r'

theorem lineWords_eq (line : List Char) :
    lineWords line = (splitAtChars isBlank (dropComment line)).filter fun w => !w.isEmpty := rfl

/-- A character that neither separates words nor starts a comment. -/
def isWordChar (c : Char) : Bool := c != ';' && !isBlank c

theorem isWordChar_iff (c : Char) : isWordChar c = true ↔ c ≠ ';' ∧ isBlank c = false := by
  simp [isWordChar]

/-- A text that is one word. -/
def IsWord (w : List Char) : Prop := w ≠ [] ∧ ∀ c ∈ w, isWordChar c = true

theorem dropComment_eq_self {l : List Char} (h : ∀ c ∈ l, c ≠ ';') : dropComment l = l := by
  induction l with
  | nil => rfl
  | cons c l ih =>
    rw [List.forall_mem_cons] at h
    rw [dropComment, if_neg h.1, ih h.2]

theorem splitAtChars_of_none {p : Char → Bool} {w : List Char} (h : ∀ c ∈ w, p c = false) :
    splitAtChars p w = [w] := by
  induction w with
  | nil => rfl
  | cons c w ih =>
    rw [List.forall_mem_cons] at h
    simp [splitAtChars, h.1, ih h.2]

theorem splitAtChars_append_cons {p : Char → Bool} {w : List Char} {c : Char} (h : ∀ d ∈ w, p d = false)
    (hc : p c = true) (l : List Char) : splitAtChars p (w ++ c :: l) = w :: splitAtChars p l := by
  induction w with
  | nil => simp [splitAtChars, hc]
  | cons d w ih =>
    rw [List.forall_mem_cons] at h
    simp [splitAtChars, h.1, ih h.2]

theorem lineWords_of_word {w : List Char} (hw : IsWord w) : lineWords w = [w] := by
  obtain ⟨hne, hchars⟩ := hw
  simp only [isWordChar_iff] at hchars
  rw [lineWords_eq, dropComment_eq_self fun c hc => (hchars c hc).1, splitAtChars_of_none fun c hc => (hchars c hc).2]
  simp [hne]

theorem lineWords_of_two_words {w d : List Char} (hw : IsWord w) (hd : IsWord d) :
    lineWords (w ++ ' ' :: d) = [w, d] := by
  obtain ⟨hwne, hwchars⟩ := hw
  obtain ⟨hdne, hdchars⟩ := hd
  simp only [isWordChar_iff] at hwchars hdchars
  have hcomment : dropComment (w ++ ' ' :: d) = w ++ ' ' :: d := by
    apply dropComment_eq_self
    simp only [List.mem_append, List.mem_cons]
    rintro c (hc | rfl | hc)
    · exact (hwchars c hc).1
    · decide
    · exact (hdchars c hc).1
  rw [lineWords_eq, hcomment, splitAtChars_append_cons (fun c hc => (hwchars c hc).2) rfl,
    splitAtChars_of_none fun c hc => (hdchars c hc).2]
  simp [hwne, hdne]

theorem isWordChar_hexDigit (v : Nibble) : isWordChar (hexDigit v) = true := by
  revert v
  decide

/-- A `0x` numeral is one word. -/
theorem isWord_hex {ds : List Char} (h : ∀ c ∈ ds, isWordChar c = true) : IsWord ('0' :: 'x' :: ds) := by
  refine ⟨List.cons_ne_nil _ _, ?_⟩
  rw [List.forall_mem_cons, List.forall_mem_cons]
  exact ⟨rfl, rfl, h⟩

theorem isWord_hexAddr (a : Addr) : IsWord (hexAddr a) :=
  isWord_hex (by simp [isWordChar_hexDigit])

theorem isWord_hexByte (b : Byte) : IsWord ('0' :: 'x' :: hexByte b) :=
  isWord_hex (by simp [hexByte, isWordChar_hexDigit])

/-! ### The text of a statement (log entry 8) -/

/-- Every mnemonic and directive is one word. -/
theorem isWord_of_mem {w : String} (hw : w ∈ ["HLT", "LDA", "ADD", "SUB", "OUT", ".byte", ".org"]) :
    IsWord w.toList := by
  simp only [List.mem_cons, List.not_mem_nil, or_false] at hw
  rcases hw with rfl | rfl | rfl | rfl | rfl | rfl | rfl <;> simp [IsWord, isWordChar, isBlank]

/-- The statements that take an address numeral, each with its first word (R73, R74). -/
def addrForms (n : Nat) : List (String × Statement) :=
  [("LDA", .lda n), ("ADD", .add n), ("SUB", .sub n), (".org", .org n)]

/-- Such a statement's text is its first word and the numeral in hex, and that word with the numeral is the statement. -/
theorem text_of_mem_addrForms {n : Nat} {w : String} {st : Statement} (h : (w, st) ∈ addrForms n) :
    st.text = w.toList ++ ' ' :: hexAddr (BitVec.ofNat 4 n) ∧ IsWord w.toList ∧
      statementOf w.toList (some n) = some st := by
  simp only [addrForms, List.mem_cons, Prod.mk.injEq, List.not_mem_nil, or_false] at h
  rcases h with ⟨rfl, rfl⟩ | ⟨rfl, rfl⟩ | ⟨rfl, rfl⟩ | ⟨rfl, rfl⟩ <;>
    refine ⟨?_, isWord_of_mem (by decide), by simp [statementOf]⟩ <;> unfold Statement.text <;> simp

theorem Statement.text_byte (n : Nat) :
    (Statement.byte n).text = ".byte".toList ++ ' ' :: '0' :: 'x' :: hexByte (BitVec.ofNat 8 n) := by
  unfold Statement.text
  simp

/-! ### A line (R73) -/

theorem parseLine_of_word {w : List Char} {st : Statement} (hw : IsWord w) (hst : statementOf w none = some st) :
    parseLine w = .ok (some st) := by
  simp [parseLine, lineWords_of_word hw, hst]

theorem parseLine_of_word_numeral {w d : List Char} {n : Nat} {st : Statement} (hw : IsWord w) (hd : IsWord d)
    (hn : numeral d = some n) (hst : statementOf w (some n) = some st) (hwf : st.wf = true) :
    parseLine (w ++ ' ' :: d) = .ok (some st) := by
  simp [parseLine, lineWords_of_two_words hw hd, hn, hst, hwf]

/-- A statement that takes an address numeral is read back (R73, R74). -/
theorem parseLine_text_of_mem_addrForms {n : Nat} {w : String} {st : Statement} (h : (w, st) ∈ addrForms n)
    (hn : addrNumeralWf n = true) (hwf : st.wf = true) :
    parseLine st.text = .ok (some st) := by
  have hlt : n < 16 := (addrNumeralWf_iff n).1 hn
  have hnum : numeral (hexAddr (BitVec.ofNat 4 n)) = some n := by
    rw [numeral_hexAddr, BitVec.toNat_ofNat, Nat.mod_eq_of_lt hlt]
  obtain ⟨htext, hw, hst⟩ := text_of_mem_addrForms h
  rw [htext]
  exact parseLine_of_word_numeral hw (isWord_hexAddr _) hnum hst hwf

/-- A `.byte` in range is read back (R74). -/
theorem parseLine_text_byte {v : Nat} (hwf : (Statement.byte v).wf = true) :
    parseLine (Statement.byte v).text = .ok (some (.byte v)) := by
  have hlt : v < 256 := (byteNumeralWf_iff v).1 hwf
  have hnum : numeral ('0' :: 'x' :: hexByte (BitVec.ofNat 8 v)) = some v := by
    rw [numeral_hexByte, BitVec.toNat_ofNat, Nat.mod_eq_of_lt hlt]
  rw [Statement.text_byte]
  exact parseLine_of_word_numeral (isWord_of_mem (by decide)) (isWord_hexByte _) hnum (by simp [statementOf]) hwf

end Sys2Proof.Machine

/-! SUPPORT. The statements about encoding and the assembler. -/

namespace Sys2Proof.Machine

/-! ### Encoding -/

/-- Settles O1: the decoder inverts the encoder, and a byte that decodes is its opcode followed by its operand. -/
theorem decodeAndEncodeAgree : Obligations.DecodeAndEncodeAgree := by
  refine ⟨fun i _ => decode_encode i, ?_⟩
  intro b i h
  obtain ⟨hop, hb | rfl | rfl⟩ := decode_eq_instr h
  · exact ⟨hop, .inl hb⟩
  · exact ⟨hop, .inr ⟨.inl rfl, rfl⟩⟩
  · exact ⟨hop, .inr ⟨.inr rfl, rfl⟩⟩

/-- Settles O2, by induction over the list. -/
theorem encodedStretchDecodesBack : Obligations.EncodedStretchDecodesBack := fun is =>
  ⟨decodeAll_map_encode is, List.length_map encode⟩

/-- Settles O3: the invalid bytes are those from 0x50 on, and each opcode gives its instruction. -/
theorem decodingCountsOfTheByteSpace : Obligations.DecodingCountsOfTheByteSpace := by
  have hvalid := count_decode_instr
  rw [Nat.count, List.countP_eq_length_filter] at hvalid
  have hsplit := List.length_eq_length_filter_add (l := List.range 256)
    fun n => decide (decode (BitVec.ofNat 8 n) ≠ .invalid)
  rw [hvalid, List.length_range] at hsplit
  simp only [decide_not, Bool.not_not] at hsplit
  refine ⟨hvalid, by omega, decode_eq_invalid_iff, ?_⟩
  intro a
  exact ⟨decode_opcode_zero a, decode_opcode_one a, decode_opcode_two a, decode_opcode_three a, decode_opcode_four a⟩

/-! ### The assembler -/

/-- Settles O42: the canonical bytes by definition, the disassembly by what each byte decodes to. -/
theorem assemblerEncodings : Obligations.AssemblerEncodings := by
  refine ⟨rfl, rfl, fun _ => ⟨rfl, rfl, rfl⟩, ?_, fun i => disassemble_of_instr (decode_encode i)⟩
  intro x
  exact ⟨disassemble_of_instr (decode_opcode_zero x), disassemble_of_instr (decode_opcode_four x)⟩

/-- Settles O43: a statement that is not well formed stops assembling wherever it stands. -/
theorem numeralOutOfRangeIsAnAssemblyError : Obligations.NumeralOutOfRangeIsAnAssemblyError := by
  intro n cur m rest
  refine ⟨?_, ?_⟩
  · intro hn st hst
    have hwf : ¬ addrNumeralWf n = true := by
      rw [addrNumeralWf_iff]
      omega
    apply assembleFrom_of_not_wf
    simp only [List.mem_cons, List.not_mem_nil, or_false] at hst
    rcases hst with rfl | rfl | rfl | rfl <;> exact hwf
  · intro hn
    apply assembleFrom_of_not_wf
    rw [Statement.wf, byteNumeralWf_iff]
    omega

/-- Settles O44: from address 0 on, in a newly built memory. -/
theorem assembledInstructionsReadBack : Obligations.AssembledInstructionsReadBack := by
  intro is hlen
  obtain ⟨m, hm, hwf, hread⟩ :=
    assembleFrom_map_ofInstr (cur := 0) (is := is) Memory.wf_new (by rwa [Nat.zero_add])
  exact ⟨m, hm, hwf, fun a => by simp [hread, Memory.unlisted]⟩

/-- Settles O45: a statement's text is one word, or a word and its numeral in hex. -/
theorem statementTextReadsBack : Obligations.StatementTextReadsBack := by
  intro st hwf
  cases st with
  | hlt => exact parseLine_of_word (w := "HLT".toList) (isWord_of_mem (by decide)) (by simp [statementOf])
  | out => exact parseLine_of_word (w := "OUT".toList) (isWord_of_mem (by decide)) (by simp [statementOf])
  | lda n => exact parseLine_text_of_mem_addrForms (w := "LDA") (by simp [addrForms]) hwf hwf
  | add n => exact parseLine_text_of_mem_addrForms (w := "ADD") (by simp [addrForms]) hwf hwf
  | sub n => exact parseLine_text_of_mem_addrForms (w := "SUB") (by simp [addrForms]) hwf hwf
  | org n => exact parseLine_text_of_mem_addrForms (w := ".org") (by simp [addrForms]) hwf hwf
  | byte v => exact parseLine_text_byte hwf

end Sys2Proof.Machine

/-! SUPPORT. What one cycle does, case by case: its step, its outcome, its datapath and its `status` side by side
(40_cycle.md R76 to R91), said once for the statements that follow. -/

namespace Sys2Proof.Machine

theorem step_of_halted {s : State} (hs : s.halted = true) : step s = .next s := by
  simp [step, hs]

/-! ### The three cases of a cycle (40_cycle.md R77, R84, R85) -/

/-- A cycle is a HALTED no-op, executes the instruction at `pc`, or meets an invalid byte; in each case, what the cycle
of R86 and the step answer. -/
theorem cycle_step_cases (s : State) :
    (s.halted = true ∧ cycle s = (.haltedNoop, s) ∧ step s = .next s) ∨
    (s.halted = false ∧ ∃ i t, decode (fetch s) = .instr i ∧ exec i s = .next t ∧
      cycle s = (.executed, t) ∧ step s = .next t) ∨
    (s.halted = false ∧ decode (fetch s) = .invalid ∧
      cycle s = (.invalidOpcode s.pc (fetch s), s) ∧ step s = .fault (.invalidOpcode s.pc (fetch s))) := by
  cases hs : s.halted with
  | true => exact .inl ⟨rfl, cycle_of_halted hs, step_of_halted hs⟩
  | false =>
    cases hd : decode (fetch s) with
    | instr i =>
      obtain ⟨t, he⟩ := exec_total i s
      exact .inr (.inl ⟨rfl, i, t, rfl, he, cycle_of_instr hs hd he, (step_of_instr hs hd).trans he⟩)
    | invalid => exact .inr (.inr ⟨rfl, rfl, cycle_of_invalid hs hd, step_of_invalid hs hd⟩)

/-- The cause of `InvalidOpcode` and the values it reports (60_exceptions.md R101). -/
theorem cycle_eq_invalidOpcode_iff (s : State) (pc : Addr) (f : Byte) :
    (cycle s).1 = .invalidOpcode pc f ↔
      s.halted = false ∧ decode (fetch s) = .invalid ∧ pc = s.pc ∧ f = fetch s := by
  rcases cycle_step_cases s with ⟨hs, hc, -⟩ | ⟨-, i, t, hd, -, hc, -⟩ | ⟨hs, hd, hc, -⟩
  · simp [hc, hs]
  · simp [hc, hd]
  · simp [hc, hs, hd, eq_comm]

/-! ### A HALTED core (40_cycle.md R77) -/

theorem cycles_of_halted {s : State} (hs : s.halted = true) (n : Nat) : cycles n s = s := by
  induction n with
  | zero => rfl
  | succ n ih => rw [cycles, cycle_of_halted hs, ih]

theorem core_run_of_halted {s : State} (hs : s.halted = true) (n : Nat) : Host.Core.run core n s = .next s := by
  induction n with
  | zero => rfl
  | succ n ih => rw [core_run_of_next (step_of_halted hs), ih]

/-! ### The datapath's arithmetic and multiplexers (40_cycle.md R88) -/

/-- The byte on `if_data` is the byte a cycle fetches (R42). -/
theorem ifData_eq_fetch (s : State) : ifData s = fetch s := rfl

/-- The low byte of the 9-bit sum is the sum of bytes. -/
theorem adder_eq_add (x y : Byte) : adder x y = x + y := by
  apply BitVec.eq_of_toNat_eq
  simp only [adder, BitVec.extractLsb'_toNat, BitVec.toNat_add, BitVec.toNat_setWidth]
  omega

/-- Adding the two's complement is subtracting. -/
theorem subtractor_eq_sub (x y : Byte) : subtractor x y = x - y := by
  rw [subtractor, BitVec.add_assoc, ← BitVec.neg_eq_not_add, BitVec.sub_eq_add_neg]

/-- On a byte that decodes, the multiplexers select what the instruction leaves in `acc`, `out` and `halted`. -/
theorem multiplexers_of_instr {s t : State} {i : Instr} (hs : s.halted = false) (hd : decode (fetch s) = .instr i)
    (h : exec i s = .next t) :
    accNext (ifData s) s.acc (opData s) = t.acc ∧ outNext (ifData s) s.acc s.out = t.out ∧
      haltedNext (ifData s) s.halted = t.halted := by
  have hop : opData s = memRead s (addrField (fetch s)) := rfl
  rw [decode_of_opcode] at hd
  rw [hop, ifData_eq_fetch]
  split_ifs at hd with h0 h1 h2 h3 h4 <;> cases hd <;>
    simp only [exec_hlt, exec_lda, exec_add, exec_sub, exec_out, Host.Outcome.next.injEq] at h <;> subst h
  · simp [accNext, outNext, haltedNext, h0]
  · simp [accNext, outNext, haltedNext, h1, hs]
  · simp [accNext, outNext, haltedNext, h2, hs, adder_eq_add]
  · simp [accNext, outNext, haltedNext, h3, hs, subtractor_eq_sub]
  · simp [accNext, outNext, haltedNext, h4, hs]

/-! ### `valid`, `en` and `status` (40_cycle.md R88, R89) -/

/-- `status` compares the opcode with 5 where the decoder finds no instruction. -/
theorem five_le_opcodeField_iff (f : Byte) : 0x5#4 ≤ opcodeField f ↔ decode f = .invalid := by
  rw [decode_eq_invalid_iff, BitVec.le_def, opcodeField_toNat]
  simp only [BitVec.toNat_ofNat]
  omega

/-- `valid` is the complement of that comparison. -/
theorem validSignal_iff (f : Byte) : validSignal f = true ↔ decode f ≠ .invalid := by
  rw [validSignal, decide_eq_true_iff, Ne, ← five_le_opcodeField_iff, BitVec.le_def, BitVec.le_def]
  simp only [BitVec.toNat_ofNat]
  omega

theorem enable_step_iff (s : State) :
    enable true false false s = true ↔ s.halted = false ∧ decode (fetch s) ≠ .invalid := by
  simp [enable, validSignal_iff, ifData_eq_fetch]

/-- Without `en` the registers hold. -/
theorem datapathClock_of_not_enable {st rst we : Bool} {s : State} (h : ¬ enable st rst we s = true) :
    datapathClock st rst we s = s :=
  if_neg h

/-- In RUNNING, on a byte that decodes, the datapath computes what the instruction does. -/
theorem datapathClock_of_instr {s t : State} {i : Instr} (hs : s.halted = false) (hd : decode (fetch s) = .instr i)
    (h : exec i s = .next t) : datapathClock true false false s = t := by
  have hen : enable true false false s = true := (enable_step_iff s).2 ⟨hs, by simp [hd]⟩
  obtain ⟨hacc, hout, hhalted⟩ := multiplexers_of_instr hs hd h
  obtain ⟨hpc, hir, hmem, -, -, -⟩ := exec_frame h
  rw [datapathClock, if_pos hen, hacc, hout, hhalted, ifData_eq_fetch, ← hpc, ← hir, ← hmem]

/-- The datapath clocked with `step` alone computes the next state of the cycle. -/
theorem datapathClock_eq_cycle (s : State) : datapathClock true false false s = (cycle s).2 := by
  rcases cycle_step_cases s with ⟨hs, hc, -⟩ | ⟨hs, i, t, hd, he, hc, -⟩ | ⟨-, hd, hc, -⟩
  · rw [hc, datapathClock_of_not_enable (by simp [enable_step_iff, hs])]
  · rw [hc, datapathClock_of_instr hs hd he]
  · rw [hc, datapathClock_of_not_enable (by simp [enable_step_iff, hd])]

/-- `status` tells the outcome of the cycle beforehand. -/
theorem status_eq_code (s : State) : status s = (cycle s).1.code := by
  rcases cycle_step_cases s with ⟨hs, hc, -⟩ | ⟨hs, i, t, hd, -, hc, -⟩ | ⟨hs, hd, hc, -⟩
  · simp [hc, status, CycleOutcome.code, hs]
  · simp [hc, status, CycleOutcome.code, hs, five_le_opcodeField_iff, ifData_eq_fetch, hd]
  · simp [hc, status, CycleOutcome.code, hs, five_le_opcodeField_iff, ifData_eq_fetch, hd]

theorem CycleOutcome.code_ne_three (o : CycleOutcome) : o.code ≠ 0b11#2 := by
  cases o <;> simp [CycleOutcome.code]

theorem CycleOutcome.code_eq_two_iff (o : CycleOutcome) : o.code = 0b10#2 ↔ ∃ pc f, o = .invalidOpcode pc f := by
  cases o <;> simp [CycleOutcome.code]

/-! ### The end of a run (40_cycle.md R91) -/

/-- A run that finishes took a first step: either that step ended it, from RUNNING to HALTED, or the run went on. -/
theorem runFor_succ_finished {n : Nat} {s t : State} (h : runFor (n + 1) s = .finished t) :
    ∃ u, step s = .next u ∧ ((s.halted = false ∧ u.halted = true ∧ u = t) ∨ runFor n u = .finished t) := by
  rw [runFor_succ] at h
  split at h
  next u hu =>
    refine ⟨u, hu, ?_⟩
    split at h
    next hend =>
      obtain ⟨hs, hu'⟩ : s.halted = false ∧ u.halted = true := by simpa using hend
      exact .inl ⟨hs, hu', RunEnd.finished.inj h⟩
    next => exact .inr h
  next => cases h
  next => cases h

end Sys2Proof.Machine

/-! SUPPORT. The statements about the cycle: its step, its datapath, its invalid opcodes, and the end of a run. -/

namespace Sys2Proof.Machine

/-! ### Step, cycle and datapath -/

/-- Settles O18: the two agree in each of the three cases of a cycle. -/
theorem stepIsTheCycleOfTheSpec : Obligations.StepIsTheCycleOfTheSpec := by
  intro s
  obtain ⟨-, hc, hstep⟩ | ⟨-, i, t, -, -, hc, hstep⟩ | ⟨-, -, hc, hstep⟩ := cycle_step_cases s <;>
    rw [hc, hstep]

/-- Settles O19: `status` is the code of the outcome, and an outcome of code binary 10 can only report `pc` and the
fetched byte. -/
theorem datapathIsTheCycle : Obligations.DatapathIsTheCycle := by
  refine ⟨fun s => ⟨datapathClock_eq_cycle s, status_eq_code s, ?_⟩, ?_, ?_⟩
  · rw [status_eq_code]
    exact CycleOutcome.code_ne_three _
  · intro s h
    rw [status_eq_code, CycleOutcome.code_eq_two_iff] at h
    obtain ⟨pc, f, ho⟩ := h
    obtain ⟨-, -, rfl, rfl⟩ := (cycle_eq_invalidOpcode_iff s pc f).1 ho
    exact ho
  · intro st rst we s h
    exact datapathClock_of_not_enable (by simp [enable, h])

/-- Settles O13: the step of a decoded instruction, and the frame of that instruction. -/
theorem stepRunsTheDecodedInstruction : Obligations.StepRunsTheDecodedInstruction := fun _ _ hs hd =>
  ⟨step_of_instr hs hd, fun _ he => ⟨(exec_frame he).ir, (exec_frame he).pc⟩⟩

/-- Settles O14: one cycle or step by the test of `halted`, any number by induction. -/
theorem haltedCycleDoesNothing : Obligations.HaltedCycleDoesNothing := fun _ hs =>
  ⟨cycle_of_halted hs, step_of_halted hs, fun n => ⟨cycles_of_halted hs n, core_run_of_halted hs n⟩⟩

/-- Settles O15: the bytes from 0x50 on are those that decode to nothing. -/
theorem invalidOpcodeChangesNoState : Obligations.InvalidOpcodeChangesNoState := by
  refine ⟨fun s pc f => ?_, fun s hs hf => ?_⟩
  · rw [← decode_eq_invalid_iff]
    exact cycle_eq_invalidOpcode_iff s pc f
  · have hd : decode (fetch s) = .invalid := (decode_eq_invalid_iff _).2 hf
    have hc := cycle_of_invalid hs hd
    exact ⟨by rw [hc], by rw [status_eq_code, hc, CycleOutcome.code], step_of_invalid hs hd⟩

/-! ### The end of a run -/

/-- Settles O28, by induction on the bound: the run ends at its first step, which by O25 executes HLT, or the rest of it
finishes. -/
theorem finishedRunExecutedHlt : Obligations.FinishedRunExecutedHlt := by
  obtain ⟨-, decode_of_halting_step, -⟩ := haltedIsSetByHltAndClearedByReset
  intro n
  induction n with
  | zero =>
    intro s t h
    cases h
  | succ n ih =>
    intro s t h
    obtain ⟨v, hv, ⟨hs, ht, rfl⟩ | hrest⟩ := runFor_succ_finished h
    · exact ⟨0, s, n.succ_pos, core_run_zero s, hs, decode_of_halting_step s v hv hs ht, hv, ht⟩
    · obtain ⟨k, u, hk, hrun, hu⟩ := ih v t hrest
      exact ⟨k + 1, u, Nat.succ_lt_succ hk, (core_run_of_next hv k).trans hrun, hu⟩

end Sys2Proof.Machine

/-! SUPPORT. What the statements about instructions need beside the answer of each one: the step of a fetched opcode,
and runs along a stretch of instructions other than HLT (40_cycle.md R83, R91; 41_instructions.md R98). -/

namespace Sys2Proof.Machine

/-! ### The step of a fetched opcode (40_cycle.md R81) -/

/-- In RUNNING the step executes what the fetched opcode, followed by the fetched operand, decodes to. -/
theorem step_of_opcode {s : State} {o : Nibble} {i : Instr} (hs : s.halted = false)
    (ho : opcodeField (fetch s) = o) (hd : decode (o ++ addrField (fetch s)) = .instr i) : step s = exec i s := by
  rw [← ho, opcodeField_append_addrField] at hd
  exact step_of_instr hs hd

/-- The difference of two bytes is the non-negative residue of their exact difference (00_scope.md R15). -/
theorem toNat_sub_eq_emod (x y : Byte) : ((x - y).toNat : Int) = ((x.toNat : Int) - y.toNat) % 256 := by
  rw [BitVec.toNat_sub]
  omega

/-! ### The advance of `pc` (40_cycle.md R83) -/

theorem add_ofNat_succ (p : Addr) (n : Nat) : p + BitVec.ofNat 4 (n + 1) = p + BitVec.ofNat 4 n + 1#4 := by
  rw [BitVec.add_assoc, BitVec.ofNat_add]

/-- After `n` steps that end in RUNNING, all of them executed and none was a HALTED no-op. -/
theorem core_run_pc {n : Nat} {s t : State} (h : Host.Core.run core n s = .next t) (ht : t.halted = false) :
    t.pc = s.pc + BitVec.ofNat 4 n := by
  induction n generalizing s with
  | zero =>
    cases h
    exact (BitVec.add_zero _).symm
  | succ n ih =>
    obtain ⟨u, hu, hrun⟩ := core_run_next h
    rcases step_next hu with ⟨hs, rfl⟩ | ⟨-, i, -, he⟩
    · obtain rfl := Host.Outcome.next.inj ((core_run_of_halted hs n).symm.trans hrun)
      simp [hs] at ht
    · rw [ih hrun, (exec_frame he).pc, add_right_comm, ← add_ofNat_succ]

/-! ### Runs that HLT has not ended (40_cycle.md R91) -/

/-- A step that leaves the core RUNNING does not end the run. -/
theorem runFor_of_next {s t : State} (h : step s = .next t) (ht : t.halted = false) (n : Nat) :
    runFor (n + 1) s = runFor n t := by
  simp [runFor_succ, h, ht]

/-- While the cells from `pc` on hold instructions other than HLT, the run goes on from a RUNNING state with `pc`
advanced and the memory as it was (41_instructions.md R98). -/
theorem runFor_along_stretch {k : Nat} {s : State} (hs : s.halted = false)
    (hk : ∀ j < k, ∃ i, decode (memRead s (s.pc + BitVec.ofNat 4 j)) = .instr i ∧ i ≠ .hlt) :
    ∃ u, (∀ m, runFor (k + m) s = runFor m u) ∧ u.halted = false ∧ u.pc = s.pc + BitVec.ofNat 4 k ∧
      u.mem = s.mem := by
  induction k with
  | zero => exact ⟨s, fun m => by rw [Nat.zero_add], hs, (BitVec.add_zero _).symm, rfl⟩
  | succ k ih =>
    obtain ⟨u, hrun, hu, hpc, hmem⟩ := ih fun j hj => hk j (Nat.lt_succ_of_lt hj)
    obtain ⟨i, hd, hi⟩ := hk k k.lt_succ_self
    rw [← hpc, ← memRead_congr hmem] at hd
    obtain ⟨t, he⟩ := exec_total i u
    have ht : t.halted = false := by simp [(exec_frame he).halted, hu, hi]
    refine ⟨t, fun m => ?_, ht, ?_, (exec_frame he).mem.trans hmem⟩
    · rw [Nat.add_right_comm, Nat.add_assoc, hrun, runFor_of_next ((step_of_instr hu hd).trans he) ht]
    · rw [(exec_frame he).pc, hpc, ← add_ofNat_succ]

/-- A cycle that executes HLT ends the run (R91). -/
theorem runFor_one_of_hlt {s : State} (hs : s.halted = false) (hd : decode (fetch s) = .instr .hlt) :
    runFor 1 s = .finished { commitFetch s with halted := true } := by
  simp [runFor_succ, step_of_instr hs hd, hs]

/-! ### Runs over valid cells (60_exceptions.md R102) -/

theorem step_of_allCellsDecode {s : State} (h : AllCellsDecode s.mem) : ∃ t, step s = .next t := by
  rcases cycle_step_cases s with ⟨-, -, hstep⟩ | ⟨-, i, t, -, -, -, hstep⟩ | ⟨-, hd, -, -⟩
  · exact ⟨s, hstep⟩
  · exact ⟨t, hstep⟩
  · exact absurd hd (h s.pc)

/-- No step faults on valid cells, and every step keeps them. -/
theorem faultFree_of_allCellsDecode {s : State} (h : AllCellsDecode s.mem) : FaultFree s := by
  intro n
  induction n generalizing s with
  | zero => exact fun r => nofun
  | succ n ih =>
    intro r
    obtain ⟨t, hstep⟩ := step_of_allCellsDecode h
    simp only [runFor_succ, hstep]
    split_ifs
    · nofun
    · exact ih (step_keeps_mem hstep ▸ h) r

/-- A byte that is valid and not HLT holds an instruction other than HLT. -/
theorem decode_instr_ne_hlt {b : Byte} (hvalid : decode b ≠ .invalid) (hne : decode b ≠ .instr .hlt) :
    ∃ i, decode b = .instr i ∧ i ≠ .hlt := by
  cases hd : decode b with
  | invalid => exact absurd hd hvalid
  | instr i => exact ⟨i, rfl, fun hi => hne (hi ▸ hd)⟩

/-- From any address on, a memory that holds an HLT has a first one, at a distance below 16. -/
theorem exists_first_hlt {m : Memory} (p : Addr) (h : ∃ a : Addr, decode (m.read a) = .instr .hlt) :
    ∃ k < 16, decode (m.read (p + BitVec.ofNat 4 k)) = .instr .hlt ∧
      ∀ j < k, decode (m.read (p + BitVec.ofNat 4 j)) ≠ .instr .hlt := by
  obtain ⟨a, ha⟩ := h
  have hdist : p + BitVec.ofNat 4 (a - p).toNat = a := by
    rw [BitVec.ofNat_toNat, BitVec.setWidth_eq, BitVec.add_comm, BitVec.sub_add_cancel]
  have hex : ∃ k, decode (m.read (p + BitVec.ofNat 4 k)) = .instr .hlt := ⟨(a - p).toNat, by rwa [hdist]⟩
  have hlt : Nat.find hex < 16 := (Nat.find_min' hex (by rwa [hdist])).trans_lt (a - p).isLt
  exact ⟨Nat.find hex, hlt, Nat.find_spec hex, fun _ hj => Nat.find_min hex hj⟩

end Sys2Proof.Machine

/-! SUPPORT. The statements about the instructions, and about runs of them. -/

namespace Sys2Proof.Machine

/-! ### Each instruction completes, with its effect -/

/-- Settles O5: HLT raises `halted` on top of the fetch commit, and a HALTED core does nothing. -/
theorem hltHaltsTheCore : Obligations.HltHaltsTheCore := by
  refine ⟨fun s => by rw [exec_hlt, commitFetch_eq], decode_opcode_zero, rfl,
    fun s hs ho => step_of_opcode hs ho (decode_opcode_zero _), ?_⟩
  intro s t n h
  have ht : t.halted = true := by simp [(exec_frame h).halted]
  exact ⟨cycle_of_halted ht, core_run_of_halted ht n⟩

/-- Settles O6: LDA writes the cell into `acc` on top of the fetch commit, and at `a = pc` that cell is the
fetched byte. -/
theorem ldaLoadsTheCell : Obligations.LdaLoadsTheCell := by
  refine ⟨fun a s => by rw [exec_lda, commitFetch_eq], fun a => ⟨decode_opcode_one a, encode_lda a⟩,
    fun s hs ho => step_of_opcode hs ho (decode_opcode_one _), ?_⟩
  intro s t h
  have hacc : t.acc = fetch s := by
    rw [exec_lda] at h
    cases h
    rfl
  exact ⟨hacc, hacc.trans (exec_frame h).ir.symm⟩

/-- Settles O7: the sum of bytes is the sum modulo 256. -/
theorem addAddsModulo256 : Obligations.AddAddsModulo256 :=
  ⟨fun a s => by rw [exec_add, commitFetch_eq, ofNat_add_mod], fun a => ⟨decode_opcode_two a, encode_add a⟩,
    fun _ hs ho => step_of_opcode hs ho (decode_opcode_two _)⟩

/-- Settles O8: the difference of bytes is the non-negative residue. -/
theorem subSubtractsModulo256 : Obligations.SubSubtractsModulo256 :=
  ⟨fun a s => ⟨s.acc - memRead s a, toNat_sub_eq_emod _ _, by rw [exec_sub, commitFetch_eq]⟩,
    fun a => ⟨decode_opcode_three a, encode_sub a⟩, fun _ hs ho => step_of_opcode hs ho (decode_opcode_three _)⟩

/-- Settles O9: OUT writes `acc` into `out` on top of the fetch commit. -/
theorem outCopiesTheAccumulator : Obligations.OutCopiesTheAccumulator :=
  ⟨fun s => by rw [exec_out, commitFetch_eq], decode_opcode_four, rfl,
    fun _ hs ho => step_of_opcode hs ho (decode_opcode_four _), fun _ _ h => (exec_frame h).out.trans (if_pos rfl)⟩

/-! ### Straight-line execution -/

/-- Settles O21, by induction on the number of steps. -/
theorem programCounterAfterCycles : Obligations.ProgramCounterAfterCycles := fun _ _ _ => core_run_pc

/-- Settles O29: the run goes along the stretch before the HLT, and the next cycle executes it. -/
theorem firstHltInSequenceEndsTheRun : Obligations.FirstHltInSequenceEndsTheRun := by
  intro k s hs hk hhlt
  refine ⟨?_, ?_⟩
  · obtain ⟨u, hrun, hu, hpc, hmem⟩ := runFor_along_stretch hs hk
    have hfetch : fetch u = memRead s (s.pc + BitVec.ofNat 4 k) := by rw [fetch, hpc, memRead_congr hmem]
    refine ⟨_, (hrun 1).trans (runFor_one_of_hlt hu (hfetch ▸ hhlt)), rfl, hmem, ?_, ?_⟩
    · rw [commitFetch_pc, hpc, ← add_ofNat_succ]
    · rw [commitFetch_ir, hfetch]
  · intro n hn
    obtain ⟨u, hrun, -, hpc, -⟩ := runFor_along_stretch hs fun j hj => hk j (hj.trans_le hn)
    exact ⟨u, hrun 0, hpc⟩

/-- Settles O30: with an HLT among the cells there is a first one from `pc` on, which by O29 ends the run; without one
every stretch is free of HLT. -/
theorem runEndsWithinSixteenCyclesIfSomeCellIsHlt : Obligations.RunEndsWithinSixteenCyclesIfSomeCellIsHlt := by
  intro s hs hall
  refine ⟨faultFree_of_allCellsDecode hall, ?_, ?_⟩
  · intro hex
    obtain ⟨k, hk, hhlt, hmin⟩ := exists_first_hlt s.pc hex
    obtain ⟨⟨t, hfin, -⟩, -⟩ := firstHltInSequenceEndsTheRun k s hs
      (fun j hj => decode_instr_ne_hlt (hall _) (hmin j hj)) hhlt
    exact ⟨k + 1, hk, t, hfin⟩
  · intro hnone n
    obtain ⟨u, hrun, hu, -⟩ := runFor_along_stretch (k := n) hs fun j _ => decode_instr_ne_hlt (hall _) (hnone _)
    exact ⟨u, hrun 0, hu⟩

end Sys2Proof.Machine

/-! SUPPORT. `InvalidOpcode` (60_exceptions.md R100 to R104): when a step faults, and what the fault does to runs, to the
hardware's cycles and to a session. -/

namespace Sys2Proof.Machine

/-! ### When a step faults (R101, R102) -/

theorem step_eq_fault_iff (s : State) (r : Fault) :
    step s = .fault r ↔ s.halted = false ∧ decode (fetch s) = .invalid ∧ r = .invalidOpcode s.pc (fetch s) := by
  obtain ⟨hs, -, hstep⟩ | ⟨-, i, t, hd, -, -, hstep⟩ | ⟨hs, hd, -, hstep⟩ := cycle_step_cases s
  · simp [hstep, hs]
  · simp [hstep, hd]
  · simp [hstep, hs, hd, eq_comm]

theorem step_ne_refused (s : State) (r : Refusal) : step s ≠ .refused r := by
  obtain ⟨-, -, hstep⟩ | ⟨-, i, t, -, -, -, hstep⟩ | ⟨-, -, -, hstep⟩ := cycle_step_cases s <;>
    simp [hstep]

/-! ### Runs and cycles at an invalid byte (R104, 40_cycle.md R85, R91) -/

/-- A run whose first step faults never finishes: without steps it is still running, with steps it is the fault. -/
theorem runFor_ne_finished_of_fault {s : State} {r : Fault} (h : step s = .fault r) (n : Nat) (t : State) :
    runFor n s ≠ .finished t := by
  cases n with
  | zero => simp [runFor]
  | succ n => simp [runFor_succ, h]

/-- A state that one cycle leaves as it is, any number of cycles does. -/
theorem cycles_of_cycle_fixed {s : State} (h : (cycle s).2 = s) (n : Nat) : cycles n s = s := by
  induction n with
  | zero => rfl
  | succ n ih => rw [cycles, h, ih]

/-! ### The fault on record in a session (R104) -/

theorem recordFault_keeps_isSome {before : Option Fault} (h : before.isSome = true) (o : CycleOutcome) :
    (recordFault before o).isSome = true := by
  cases o with
  | executed => exact h
  | haltedNoop => exact h
  | invalidOpcode pc byte => rfl

/-- A session's cycle at an invalid byte puts a fault on record and leaves the core. -/
theorem session_cycle_of_invalid {x y : Session} {w : Answer} (hs : x.core.halted = false)
    (hd : decode (fetch x.core) = .invalid) (h : x.apply .cycle = .ok (y, w)) :
    y.fault.isSome = true ∧ y.core = x.core := by
  cases h
  rw [cycle_of_invalid hs hd]
  exact ⟨rfl, rfl⟩

/-- Of the operations other than reset a cycle alone writes the record, and it never clears it. -/
theorem session_apply_keeps_fault {x y : Session} {o : Operation} {w : Answer} (ho : o ≠ .reset)
    (h : x.apply o = .ok (y, w)) (hx : x.fault.isSome = true) : y.fault.isSome = true := by
  rcases session_apply_cases h with ⟨-, rfl⟩ | ⟨hreset, -⟩ | ⟨-, rfl⟩ | ⟨r, v, -, rfl⟩ | ⟨a, v, s, -, -, rfl⟩
  · exact recordFault_keeps_isSome hx _
  · exact absurd hreset ho
  · exact hx
  · exact hx
  · exact hx

theorem Session.not_final_of_fault {x : Session} (hx : x.fault.isSome = true) : ¬ x.Final := by
  rintro ⟨-, hnone⟩
  simp [hnone] at hx

end Sys2Proof.Machine

/-! SUPPORT. The statements about exceptions. -/

namespace Sys2Proof.Machine

/-- Settles O16: the bytes from 0x50 on are those that decode to nothing, and only there a step faults. -/
theorem onlyInvalidBytesStopAStep : Obligations.OnlyInvalidBytesStopAStep := by
  refine ⟨exec_total, fun s r => ?_, step_ne_refused⟩
  rw [← decode_eq_invalid_iff]
  exact step_eq_fault_iff s r

/-- Settles O17: the first step faults and a cycle leaves the state, so that runs stop at once and cycles meet the same
byte again; a session by its operations. -/
theorem invalidOpcodeIsRecordedAndRepeats : Obligations.InvalidOpcodeIsRecordedAndRepeats := by
  refine ⟨fun s hs hd => ?_, fun _ _ _ => session_cycle_of_invalid, fun _ _ _ _ => session_apply_keeps_fault,
    fun _ => Session.not_final_of_fault⟩
  have hstep := step_of_invalid hs hd
  have hcycle := cycle_of_invalid hs hd
  have hcycles : ∀ n, cycles n s = s := cycles_of_cycle_fixed (by rw [hcycle])
  refine ⟨core_run_of_fault hstep, runFor_ne_finished_of_fault hstep, fun n => ⟨hcycles n, ?_⟩⟩
  rw [hcycles, hcycle]

end Sys2Proof.Machine

/-! SUPPORT. A reset beside a host memory write, in a session and at a clock edge (70_reset_and_hazards.md R116, R119,
R122). -/

namespace Sys2Proof.Machine

/-! ### Reset and a host memory write commute (R116, R119) -/

/-- A reset leaves memory, so a write after it is refused exactly as before it, and stores the same. -/
theorem hostMemWrite_applyReset (s : State) (a v : Int) :
    hostMemWrite s.applyReset a v = (hostMemWrite s a v).map State.applyReset := by
  unfold hostMemWrite
  split_ifs <;> rfl

theorem session_run_reset_cons (x : Session) (os : List Operation) :
    x.run (.reset :: os) = Session.run { x with core := x.core.applyReset } os := rfl

/-- A run that begins with a memory write is the write, and from its state the rest of the run. -/
theorem session_run_memWrite_cons (x : Session) (a v : Int) (os : List Operation) :
    x.run (.memWrite a v :: os) = (hostMemWrite x.core a v).bind fun s => Session.run { x with core := s } os := by
  simp only [Session.run, Session.apply]
  cases hostMemWrite x.core a v <;> rfl

theorem session_run_reset_memWrite_comm (x : Session) (a v : Int) (os : List Operation) :
    x.run (.reset :: .memWrite a v :: os) = x.run (.memWrite a v :: .reset :: os) := by
  rw [session_run_reset_cons, session_run_memWrite_cons, session_run_memWrite_cons, hostMemWrite_applyReset]
  cases hostMemWrite x.core a v <;> rfl

/-- Runs that agree from every session agree behind a common first operation. -/
theorem session_run_cons_congr {os os' : List Operation} (h : ∀ y : Session, y.run os = y.run os') (x : Session)
    (o : Operation) : x.run (o :: os) = x.run (o :: os') := by
  simp only [Session.run, h]

/-! ### A host memory write at a clock edge (R122, D15) -/

theorem clockEdge_of_memWrite_with_step {i : EdgeInputs} {a v : Int} (hmw : i.memWrite = some (a, v))
    (hstep : i.step = true) (s : State) : clockEdge i s = .refused .memoryWriteWithOtherOperation := by
  simp [clockEdge, hmw, hstep]

/-- Alone at its edge a host memory write succeeds where the host's write of R54 does, in the same state. -/
theorem clockEdge_next_iff_of_memWrite_alone {i : EdgeInputs} {a v : Int} (hmw : i.memWrite = some (a, v))
    (hrst : i.rst = false) (hstep : i.step = false) (hwe : i.hostWe = false) (s t : State) :
    clockEdge i s = .next t ↔ hostMemWrite s a v = .ok t := by
  cases hw : hostMemWrite s a v <;> simp [clockEdge, hmw, hrst, hstep, hwe, hw]

end Sys2Proof.Machine

/-! SUPPORT. The statements about reset and hazards. -/

namespace Sys2Proof.Machine

/-- Settles O40, by induction on the image: the reset moves behind one write after another. -/
theorem resetAndLoadingMaySwap : Obligations.ResetAndLoadingMaySwap := by
  intro x image
  simp only [bootOperations, List.map_nil, List.append_nil]
  induction image generalizing x with
  | nil => rfl
  | cons p image ih =>
    exact (session_run_reset_memWrite_comm x p.1 p.2 _).trans (session_run_cons_congr ih x _)

/-- Settles O33: with `step` the write is refused, and alone at its edge it is the host's write. -/
theorem memoryWriteAtTheEdgeOfACycleIsRefused : Obligations.MemoryWriteAtTheEdgeOfACycleIsRefused := by
  intro i s a v hmw
  refine ⟨fun _ hstep => clockEdge_of_memWrite_with_step hmw hstep s, ?_⟩
  intro hrst hstep hwe t
  exact (clockEdge_next_iff_of_memWrite_alone hmw hrst hstep hwe s t).symm

end Sys2Proof.Machine

/-! SUPPORT. The example bytes of the spec, read off the decoder's rule for each opcode. -/

namespace Sys2Proof.Machine

/-- Settles O4: each valid byte is an opcode before its operand nibble (W9 to W13), and the invalid ones are at least 0x50. -/
theorem exampleBytesDecode : Obligations.ExampleBytesDecode := by
  have hinvalid {b : Byte} (hb : 0x50 ≤ b.toNat) : decode b = .invalid := (decode_eq_invalid_iff b).mpr hb
  exact ⟨decode_opcode_one 0xA#4, decode_opcode_two 0xB#4, decode_opcode_three 0xB#4,
    decode_opcode_four 0x0#4, decode_opcode_zero 0x0#4, decode_opcode_zero 0xF#4,
    decode_opcode_four 0xF#4, hinvalid (by decide), hinvalid (by decide)⟩

end Sys2Proof.Machine
